-- ==== Sys2Proof/Word.lean ====
section
/-! DEFINITION. The word types of the core and the widths the spec fixes (00_scope.md R6, R11, R12).

Byte order, field extraction and every computation stand in Decode.lean and under Machine/. -/

namespace Sys2Proof

/-- A byte: a `V` register, a timer, a byte of memory, an immediate `kk` (R6). -/
abbrev Byte := BitVec 8

/-- A 16-bit value: an instruction word, `PC`, `I`, a stack entry (R6). -/
abbrev Word := BitVec 16

/-- The 12-bit address field `nnn` (R6). -/
abbrev Addr12 := BitVec 12

/-- The index of a `V` register, always 0 to 15 because its source is a 4-bit field (R21). -/
abbrev Reg := Fin 16

end Sys2Proof
end

