-- ==== Sys2Proof/Config.lean ====
section
/-! DEFINITION. The sizes the spec fixes (00_scope.md R6, R7) and the two parameters it leaves as arguments of the
model, `ALU_EXT` (R9) and `GLYPH_TABLE` (R8). Their values at `State.reset` stand in Machine/Parameters.lean.

The model has no free value: the spec leaves no result of an instruction undefined. -/

namespace Sys2Proof

/-- `MEM_SIZE`: bytes of memory, addresses 0 to 4095 (R6, R50). -/
abbrev memSize : Nat := 4096

/-- `PROGRAM_ORIGIN`: where `load` puts the image (R6, R178). -/
abbrev programOrigin : Nat := 512

/-- `MAX_PROGRAM_SIZE` (R7). -/
abbrev maxProgramSize : Nat := 3583

/-- `GLYPH_SIZE`: bytes of the glyph table (R6). -/
abbrev glyphSize : Nat := 80

/-- `STACK_DEPTH` (R6). -/
abbrev stackDepth : Nat := 16

/-- The 80 bytes of a glyph table (R8). -/
abbrev GlyphTable := Vector Byte 80

/-- The parameters of a core. The spec says that the model takes them as arguments (R8, R9, R41); a core never
changes them. DESIGN CHOICE (log entry 1): they are carried in one read-only field of the state. -/
structure Config where
  /-- `ALU_EXT`: whether `8xy5`, `8xy6`, `8xy7` and `8xyE` are instructions (R9). -/
  aluExt     : Bool
  /-- `GLYPH_TABLE`: the contents of `mem[0..79]` after `init` (R8). -/
  glyphTable : GlyphTable
  deriving DecidableEq, Repr

end Sys2Proof
end

