-- ==== Sys2Proof/Machine/Parameters.lean ====
section
/-! DEFINITION. The values of the two parameters on the core of `State.reset`: the default glyph table of 10_state.md
R37 and `ALU_EXT`. -/

namespace Sys2Proof

/-- Glyphs 0 to 3 of the default table (R37). -/
def defaultGlyphs03 : List Byte :=
  [0xF0, 0x90, 0x90, 0x90, 0xF0,  0x20, 0x60, 0x20, 0x20, 0x70,
   0xF0, 0x10, 0xF0, 0x80, 0xF0,  0xF0, 0x10, 0xF0, 0x10, 0xF0]

/-- Glyphs 4 to 7 of the default table (R37). -/
def defaultGlyphs47 : List Byte :=
  [0x90, 0x90, 0xF0, 0x10, 0x10,  0xF0, 0x80, 0xF0, 0x10, 0xF0,
   0xF0, 0x80, 0xF0, 0x90, 0xF0,  0xF0, 0x10, 0x20, 0x40, 0x40]

/-- Glyphs 8 to B of the default table (R37). -/
def defaultGlyphs8B : List Byte :=
  [0xF0, 0x90, 0xF0, 0x90, 0xF0,  0xF0, 0x90, 0xF0, 0x10, 0xF0,
   0xF0, 0x90, 0xF0, 0x90, 0x90,  0xE0, 0x90, 0xE0, 0x90, 0xE0]

/-- Glyphs C to F of the default table (R37). -/
def defaultGlyphsCF : List Byte :=
  [0xF0, 0x80, 0x80, 0x80, 0xF0,  0xE0, 0x90, 0x90, 0x90, 0xE0,
   0xF0, 0x80, 0xF0, 0x80, 0xF0,  0xF0, 0x80, 0xF0, 0x80, 0x80]

/-- The default `GLYPH_TABLE` of R37. PRESUMED (log entry 3): the spec itself takes these bytes from general
knowledge (93_implementation_defined.md G1). -/
def defaultGlyphTable : GlyphTable :=
  ⟨(defaultGlyphs03 ++ defaultGlyphs47 ++ defaultGlyphs8B ++ defaultGlyphsCF).toArray, rfl⟩

/-- The configuration of `State.reset`: the default glyph table, and `ALU_EXT` true. DESIGN CHOICE (log entry 2):
the spec imposes no default for `ALU_EXT` (92_eei_decisions.md D7); true is its "complete implementation". -/
def Config.standard : Config := { aluExt := true, glyphTable := defaultGlyphTable }

end Sys2Proof
end

