-- ==== Sys2Proof/Syntax.lean ====
section
/-! DEFINITION. The instructions: one constructor per row of spec/opcode_table.json (30_encoding.md R76, R77).

A word that matches no row is no instruction and has no constructor here: the decoder answers `Decoded.unrecognised`
(30_encoding.md R81; log entry 9). -/

namespace Sys2Proof

/-- The 18 instruction forms, with their operand fields (R71, R73). -/
inductive Instr where
  /-- `00E0` `CLS` (R100). -/
  | cls
  /-- `00EE` `RET` (R105). -/
  | ret
  /-- `1nnn` `JP nnn` (R106). -/
  | jp (nnn : Addr12)
  /-- `2nnn` `CALL nnn` (R107). -/
  | call (nnn : Addr12)
  /-- `3xkk` `SE Vx, kk` (R115). -/
  | seImm (x : Reg) (kk : Byte)
  /-- `4xkk` `SNE Vx, kk` (R116). -/
  | sneImm (x : Reg) (kk : Byte)
  /-- `5xy0` `SE Vx, Vy` (R117). -/
  | seReg (x y : Reg)
  /-- `6xkk` `LD Vx, kk` (R125). -/
  | ldImm (x : Reg) (kk : Byte)
  /-- `7xkk` `ADD Vx, kk` (R126). -/
  | addImm (x : Reg) (kk : Byte)
  /-- `8xy0` `LD Vx, Vy` (R130). -/
  | ldReg (x y : Reg)
  /-- `8xy1` `OR Vx, Vy` (R131). -/
  | orReg (x y : Reg)
  /-- `8xy2` `AND Vx, Vy` (R132). -/
  | andReg (x y : Reg)
  /-- `8xy3` `XOR Vx, Vy` (R133). -/
  | xorReg (x y : Reg)
  /-- `8xy4` `ADD Vx, Vy` (R134). -/
  | addReg (x y : Reg)
  /-- `8xy5` `SUB Vx, Vy`, only with `ALU_EXT` (R140). -/
  | sub (x y : Reg)
  /-- `8xy6` `SHR Vx`, only with `ALU_EXT`; `y` is part of the word and ignored by the effect (R141, R80). -/
  | shr (x y : Reg)
  /-- `8xy7` `SUBN Vx, Vy`, only with `ALU_EXT` (R142). -/
  | subn (x y : Reg)
  /-- `8xyE` `SHL Vx`, only with `ALU_EXT`; `y` is part of the word and ignored by the effect (R143, R80). -/
  | shl (x y : Reg)
  deriving DecidableEq, Repr

end Sys2Proof
end

