-- ==== Sys2Proof/WellFormed.lean ====
section
/-! DEFINITION. Which instructions a core has. Every operand field is in range by its type (30_encoding.md R72), so
the one thing to check is the condition of the opcode table's row: the four forms of the ALU extension are
instructions only when `ALU_EXT` is true (00_scope.md R9, 30_encoding.md R77). -/

namespace Sys2Proof

/-- Whether the instruction belongs to the ALU extension (30_encoding.md R77). -/
def Instr.isExtension : Instr → Bool
  | .cls => false
  | .ret => false
  | .jp _ => false
  | .call _ => false
  | .seImm _ _ => false
  | .sneImm _ _ => false
  | .seReg _ _ => false
  | .ldImm _ _ => false
  | .addImm _ _ => false
  | .ldReg _ _ => false
  | .orReg _ _ => false
  | .andReg _ _ => false
  | .xorReg _ _ => false
  | .addReg _ _ => false
  | .sub _ _ => true
  | .shr _ _ => true
  | .subn _ _ => true
  | .shl _ _ => true

/-- The instruction exists on a core whose `ALU_EXT` parameter is `aluExt` (R9, R76, R77). -/
def Instr.wellFormed (aluExt : Bool) (i : Instr) : Bool := !i.isExtension || aluExt

end Sys2Proof
end

