-- ==== Sys2Proof/Decode.lean ====
section
/-! DEFINITION. From bytes to instructions and back (30_encoding.md; 20_memory.md R54): the byte order of an
instruction word, its fields, the dispatch, the opcode table, the encoder. -/

namespace Sys2Proof

/-! ## Byte order -/

/-- The instruction word of two bytes in memory order, most significant byte first (20_memory.md R54).
PRESUMED (log entry 4): the spec's decision D1, from general knowledge. -/
def wordOfBytes (first second : Byte) : Word := first ++ second

/-- The byte of a word at the lower address (R54). -/
def firstByte (w : Word) : Byte := w.extractLsb' 8 8

/-- The byte of a word at the higher address (R54). -/
def secondByte (w : Word) : Byte := w.extractLsb' 0 8

/-! ## Fields (R71) -/

/-- `op`, bits 15:12. -/
def opField (w : Word) : BitVec 4 := w.extractLsb' 12 4

/-- `x`, bits 11:8. -/
def xField (w : Word) : Reg := (w.extractLsb' 8 4).toFin

/-- `y`, bits 7:4. -/
def yField (w : Word) : Reg := (w.extractLsb' 4 4).toFin

/-- `n`, bits 3:0. -/
def nField (w : Word) : BitVec 4 := w.extractLsb' 0 4

/-- `kk`, bits 7:0. -/
def kkField (w : Word) : Byte := w.extractLsb' 0 8

/-- `nnn`, bits 11:0. -/
def nnnField (w : Word) : Addr12 := w.extractLsb' 0 12

/-! ## Dispatch -/

/-- What the decoder makes of a word (R81): an instruction with its fields, or an unrecognised word, which it
rejects by this name (R79). -/
inductive Decoded where
  | instr (i : Instr)
  | unrecognised (w : Word)
  deriving DecidableEq, Repr

/-- An instruction that exists only with `ALU_EXT` (R9, R77). -/
def ifExtension (aluExt : Bool) (w : Word) (i : Instr) : Decoded :=
  if aluExt then .instr i else .unrecognised w

/-- The second-level dispatch of the group whose high nibble is 8, on the low nibble (R75 step 3). -/
def decodeGroup8 (aluExt : Bool) (w : Word) : Decoded :=
  match nField w with
  | 0x0#4 => .instr (.ldReg (xField w) (yField w))
  | 0x1#4 => .instr (.orReg (xField w) (yField w))
  | 0x2#4 => .instr (.andReg (xField w) (yField w))
  | 0x3#4 => .instr (.xorReg (xField w) (yField w))
  | 0x4#4 => .instr (.addReg (xField w) (yField w))
  | 0x5#4 => ifExtension aluExt w (.sub (xField w) (yField w))
  | 0x6#4 => ifExtension aluExt w (.shr (xField w) (yField w))
  | 0x7#4 => ifExtension aluExt w (.subn (xField w) (yField w))
  | 0xE#4 => ifExtension aluExt w (.shl (xField w) (yField w))
  | _ => .unrecognised w

/-- The primary dispatch on the high nibble (R75 step 2). `5xyN` with `N ≠ 0` is unrecognised (R78, log entry 10). -/
def decodeByHighNibble (aluExt : Bool) (w : Word) : Decoded :=
  match opField w with
  | 0x1#4 => .instr (.jp (nnnField w))
  | 0x2#4 => .instr (.call (nnnField w))
  | 0x3#4 => .instr (.seImm (xField w) (kkField w))
  | 0x4#4 => .instr (.sneImm (xField w) (kkField w))
  | 0x5#4 => if nField w = 0x0#4 then .instr (.seReg (xField w) (yField w)) else .unrecognised w
  | 0x6#4 => .instr (.ldImm (xField w) (kkField w))
  | 0x7#4 => .instr (.addImm (xField w) (kkField w))
  | 0x8#4 => decodeGroup8 aluExt w
  | _ => .unrecognised w

/-- The decoder: the two full-word literals first, then the high nibble (R75). Total on every word (R81). -/
def decode (aluExt : Bool) (w : Word) : Decoded :=
  if w = 0x00E0#16 then .instr .cls
  else if w = 0x00EE#16 then .instr .ret
  else decodeByHighNibble aluExt w

/-- Decoding two bytes in memory order. -/
def decodeBytes (aluExt : Bool) (first second : Byte) : Decoded := decode aluExt (wordOfBytes first second)

/-! ## The encoder (R73, R76, R77) -/

/-- The four bits of a register index. -/
def regBits (r : Reg) : BitVec 4 := BitVec.ofFin r

/-- Format A: `op` and `nnn` (R73). -/
def wordA (op : BitVec 4) (nnn : Addr12) : Word := op ++ nnn

/-- Format XK: `op`, `x`, `kk` (R73). -/
def wordXK (op : BitVec 4) (x : Reg) (kk : Byte) : Word := op ++ regBits x ++ kk

/-- Format XY: `op`, `x`, `y`, `n` (R73). -/
def wordXY (op : BitVec 4) (x y : Reg) (n : BitVec 4) : Word :=
  op ++ regBits x ++ regBits y ++ n

/-- The word of an instruction, from the encoding tables of R76 and R77. -/
def encode : Instr → Word
  | .cls => 0x00E0#16
  | .ret => 0x00EE#16
  | .jp nnn => wordA 0x1#4 nnn
  | .call nnn => wordA 0x2#4 nnn
  | .seImm x kk => wordXK 0x3#4 x kk
  | .sneImm x kk => wordXK 0x4#4 x kk
  | .seReg x y => wordXY 0x5#4 x y 0x0#4
  | .ldImm x kk => wordXK 0x6#4 x kk
  | .addImm x kk => wordXK 0x7#4 x kk
  | .ldReg x y => wordXY 0x8#4 x y 0x0#4
  | .orReg x y => wordXY 0x8#4 x y 0x1#4
  | .andReg x y => wordXY 0x8#4 x y 0x2#4
  | .xorReg x y => wordXY 0x8#4 x y 0x3#4
  | .addReg x y => wordXY 0x8#4 x y 0x4#4
  | .sub x y => wordXY 0x8#4 x y 0x5#4
  | .shr x y => wordXY 0x8#4 x y 0x6#4
  | .subn x y => wordXY 0x8#4 x y 0x7#4
  | .shl x y => wordXY 0x8#4 x y 0xE#4

/-! ## The opcode table (R76, R77, R85) -/

/-- One row: a word `w` selects it exactly when `w &&& mask = pattern` (R76), on a core with `ALU_EXT` when
`extension` says so (R77). -/
structure OpcodeRow where
  name      : String
  mask      : Word
  pattern   : Word
  extension : Bool
  deriving DecidableEq, Repr

/-- The word matches the row's fixed bits. -/
def OpcodeRow.selects (row : OpcodeRow) (w : Word) : Bool := w &&& row.mask == row.pattern

/-- The row's condition holds (R85). -/
def OpcodeRow.enabled (row : OpcodeRow) (aluExt : Bool) : Bool := !row.extension || aluExt

/-- The 14 rows of R76, in the spec's order. -/
def baseRows : List OpcodeRow :=
  [⟨"CLS", 0xFFFF, 0x00E0, false⟩, ⟨"RET", 0xFFFF, 0x00EE, false⟩,
   ⟨"JP", 0xF000, 0x1000, false⟩, ⟨"CALL", 0xF000, 0x2000, false⟩,
   ⟨"SE_IMM", 0xF000, 0x3000, false⟩, ⟨"SNE_IMM", 0xF000, 0x4000, false⟩,
   ⟨"SE_REG", 0xF00F, 0x5000, false⟩, ⟨"LD_IMM", 0xF000, 0x6000, false⟩,
   ⟨"ADD_IMM", 0xF000, 0x7000, false⟩, ⟨"LD_REG", 0xF00F, 0x8000, false⟩,
   ⟨"OR", 0xF00F, 0x8001, false⟩, ⟨"AND", 0xF00F, 0x8002, false⟩,
   ⟨"XOR", 0xF00F, 0x8003, false⟩, ⟨"ADD_REG", 0xF00F, 0x8004, false⟩]

/-- The 4 rows of R77. -/
def extensionRows : List OpcodeRow :=
  [⟨"SUB", 0xF00F, 0x8005, true⟩, ⟨"SHR", 0xF00F, 0x8006, true⟩,
   ⟨"SUBN", 0xF00F, 0x8007, true⟩, ⟨"SHL", 0xF00F, 0x800E, true⟩]

/-- The 18 rows of spec/opcode_table.json. -/
def opcodeTable : List OpcodeRow := baseRows ++ extensionRows

/-- The name of an instruction's row in spec/opcode_table.json. -/
def Instr.rowName : Instr → String
  | .cls => "CLS"
  | .ret => "RET"
  | .jp _ => "JP"
  | .call _ => "CALL"
  | .seImm _ _ => "SE_IMM"
  | .sneImm _ _ => "SNE_IMM"
  | .seReg _ _ => "SE_REG"
  | .ldImm _ _ => "LD_IMM"
  | .addImm _ _ => "ADD_IMM"
  | .ldReg _ _ => "LD_REG"
  | .orReg _ _ => "OR"
  | .andReg _ _ => "AND"
  | .xorReg _ _ => "XOR"
  | .addReg _ _ => "ADD_REG"
  | .sub _ _ => "SUB"
  | .shr _ _ => "SHR"
  | .subn _ _ => "SUBN"
  | .shl _ _ => "SHL"

/-! ## The host's view of the decoder -/

/-- The instruction the decoder reads from a word given as a number, on the configuration of `State.reset`
(log entry 24): the word is laid out as its two bytes in memory order and these are decoded. No instruction is
longer than 16 bits (R70). -/
def decodeTableWord (nbits w : Nat) : Option Instr :=
  if nbits ≤ 16 then
    let word : Word := BitVec.ofNat 16 (w % 2 ^ nbits)
    match decodeBytes Config.standard.aluExt (firstByte word) (secondByte word) with
    | .instr i => some i
    | .unrecognised _ => none
  else none

end Sys2Proof
end

