-- ==== Sys2Proof/Machine/State.lean ====
section
/-! DEFINITION. The state of the core (10_state.md R20), the outcomes of a step (40_cycle.md R98), and reset. -/

namespace Sys2Proof.Machine

/-- The faults of the core (60_exceptions.md R150). Each is taken as a NEXT state in which `FAULT` holds its code
(R155; log entry 5). -/
inductive Cause where
  /-- `CALL` at depth 16 (R151). -/
  | stackOverflow
  /-- `RET` at depth 0 (R152). -/
  | stackUnderflow
  /-- `PC > 0x0FFE` at the start of a step (R153, 40_cycle.md R92). -/
  | fetchOutOfRange
  deriving DecidableEq, Repr

/-- The events a step can emit (40_cycle.md R98). -/
inductive Event where
  /-- `CLS` asks the Screen Collaborator to clear (41_display.md R100). -/
  | screenClear
  /-- An unrecognised word was executed: the word and the address it was fetched from (40_cycle.md R96). -/
  | unrecognized (word addr : Word)
  deriving DecidableEq, Repr

/-- What a step returns to the host (40_cycle.md R98). -/
inductive StepOutcome where
  | ok (events : List Event)
  | fault (cause : Cause)
  | halted
  deriving DecidableEq, Repr

/-- The reasons the MODEL stops. -/
inductive Fault where
  /-- Raised by `CALL` and `RET` alone, in a state whose `SP` is 17 to 31: 10_state.md R28 says that these values are
  never taken, and the stack entry the operation would touch does not exist. Safe: the model stops where the spec
  describes no state, and no step leads there (log entry 8). -/
  | stackPointerInvalid
  deriving DecidableEq, Repr

/-- The reasons the model has no meaning for an instruction. -/
inductive Refusal where
  /-- Raised by an arm of `exec` whose instruction has no meaning yet. Safe. No arm raises it. -/
  | notModelled (mnemonic : String)
  deriving DecidableEq, Repr

/-- Memory: the bytes that differ from the reset contents, by rising address (`Memory.wf` in Machine/Ops.lean;
log entry 18). -/
abbrev Memory := List Host.Cell

/-- The complete state of one core (R20), the parameters it was built with, and the outcome of its latest step. -/
structure State where
  /-- The parameters `ALU_EXT` and `GLYPH_TABLE` (00_scope.md R8, R9). Nothing writes them (log entry 1). -/
  cfg      : Config
  /-- `V[0]`..`V[15]`; `V[15]` is also the flag (R21, R22). -/
  v        : Vector Byte 16
  /-- `PC` (R23 to R25). -/
  pc       : Word
  /-- `I` (R26). -/
  i        : Word
  /-- `stack[0]`..`stack[15]` (R27). -/
  stack    : Vector Word 16
  /-- `SP`, the number of valid entries, 0 to 16 (R28). -/
  sp       : BitVec 5
  /-- `DT` (R31). -/
  dt       : Byte
  /-- `ST` (R31). -/
  st       : Byte
  /-- `mem` (R34). -/
  mem      : Memory
  /-- `FAULT`: 0 while the core runs, else the code of the fault (R32). -/
  fault    : BitVec 2
  /-- `UNREC_CNT` (R33). -/
  unrecCnt : Word
  /-- The outcome of the latest step (40_cycle.md R98). The model's own field, not the spec's state (log entry 6). -/
  outcome  : StepOutcome
  deriving DecidableEq, Repr

/-- The state that `init` leaves on a core with these parameters (70_reset_and_hazards.md R175, 10_state.md R36):
everything zero, memory at its reset contents. -/
def State.init (c : Config) : State where
  cfg      := c
  v        := Vector.replicate 16 0
  pc       := 0
  i        := 0
  stack    := Vector.replicate 16 0
  sp       := 0
  dt       := 0
  st       := 0
  mem      := []
  fault    := 0
  unrecCnt := 0
  outcome  := .ok []

/-- The machine right after reset (R175), on the standard configuration (log entries 2 and 3). No program is in it:
the host's `load` brings one (log entry 17). -/
def State.reset : State := State.init Config.standard

end Sys2Proof.Machine
end

