-- ==== Sys2Proof/Machine/Ops.lean ====
section
/-! DEFINITION. The named operations over memory, registers, the stack and `PC`, taking a fault, and the parts of a
step around its instruction. Every meaning is written over these. -/

namespace Sys2Proof.Machine

/-! ## Memory (20_memory.md) -/

/-- What an address that the list does not name reads as: the reset contents, the glyph table at 0 to 79 and zero
above (10_state.md R36). -/
def resetByte (g : GlyphTable) (a : Nat) : Byte := if h : a < glyphSize then g[a] else 0

/-- The listed byte of an address, if any. -/
def Memory.find : Memory → Nat → Option Byte
  | [], _ => none
  | (k, b) :: rest, a => if k = a then some b else Memory.find rest a

/-- The byte at an address of the 4096. -/
def Memory.read (g : GlyphTable) (m : Memory) (a : Nat) : Byte := (Memory.find m a).getD (resetByte g a)

/-- List a byte at an address, in rising order. -/
def Memory.insert : Memory → Nat → Byte → Memory
  | [], a, b => [(a, b)]
  | (k, c) :: rest, a, b =>
    if a < k then (a, b) :: (k, c) :: rest
    else if a = k then (a, b) :: rest
    else (k, c) :: Memory.insert rest a b

/-- Take an address off the list. -/
def Memory.erase : Memory → Nat → Memory
  | [], _ => []
  | (k, c) :: rest, a => if k = a then Memory.erase rest a else (k, c) :: Memory.erase rest a

/-- Write one byte and keep the canonical form. An address that does not exist is never written (00_scope.md R14). -/
def Memory.write (g : GlyphTable) (m : Memory) (a : Nat) (b : Byte) : Memory :=
  if memSize ≤ a then m
  else if b = resetByte g a then Memory.erase m a
  else Memory.insert m a b

/-- `MemWrite`: bytes at consecutive addresses, from `a` upward (R14). -/
def Memory.writeBytes (g : GlyphTable) : Memory → Nat → List Byte → Memory
  | m, _, [] => m
  | m, a, b :: bs => Memory.writeBytes g (Memory.write g m a b) (a + 1) bs

/-- The canonical form: addresses strictly rising and below 4096, no entry equal to the reset contents. -/
abbrev Memory.wf (g : GlyphTable) (m : Memory) : Prop :=
  m.Pairwise (fun c d => c.1 < d.1) ∧ ∀ c ∈ m, c.1 < memSize ∧ c.2 ≠ resetByte g c.1

/-- `MemRead(a, 1)`: the byte at an address that exists; an access above 4095 is never performed (R14). -/
def State.memRead (s : State) (a : Nat) : Option Byte :=
  if a < memSize then some (Memory.read s.cfg.glyphTable s.mem a) else none

/-! ## Registers (10_state.md R13, R21) -/

/-- Read `V[r]`. -/
def State.reg (s : State) (r : Reg) : Byte := s.v[r.val]

/-- `V[r] <- b`. -/
def State.setReg (s : State) (r : Reg) (b : Byte) : State := { s with v := s.v.set r.val b }

/-- The flag register `VF` (R22). -/
abbrev flagReg : Reg := 15

/-- `PC <- t`. -/
def State.setPc (s : State) (t : Word) : State := { s with pc := t }

/-- A skip: `PC <- PC + 2` on the already advanced `PC` when the condition holds, modulo 2^16 (43_skip.md R118). -/
def State.skipIf (s : State) (c : Bool) : State := if c then s.setPc (s.pc + 2) else s

/-! ## Events and the outcome of a step (40_cycle.md R98) -/

/-- Append an event to an outcome that is still `ok` (00_scope.md R15). A step that has ended otherwise has no event
list; no step emits after its end. -/
def StepOutcome.push : StepOutcome → Event → StepOutcome
  | .ok events, e => .ok (events ++ [e])
  | .fault c, _ => .fault c
  | .halted, _ => .halted

/-- `emit e`. -/
def State.emit (s : State) (e : Event) : State := { s with outcome := s.outcome.push e }

/-! ## Faults (60_exceptions.md) -/

/-- The code of a fault in `FAULT` (R150). -/
def Cause.code : Cause → BitVec 2
  | .stackOverflow => 1
  | .stackUnderflow => 2
  | .fetchOutOfRange => 3

/-- TAKING A FAULT: `FAULT` receives the code and the step ends with the outcome `fault(cause)`. Nothing is saved, no
mode changes and control goes nowhere (R155). There is no return from a fault: no instruction clears `FAULT`, only
`init` does (R157, R176). -/
def State.raise (s : State) (c : Cause) : State := { s with fault := c.code, outcome := .fault c }

/-- A step request to a halted core: no state changes, the outcome is `halted` (40_cycle.md R90). -/
def State.halt (s : State) : State := { s with outcome := .halted }

/-! ## The stack (10_state.md R27 to R30) -/

/-- The answer of `Push` (R29). `invalid` is the model's own, for `SP` 17 to 31 (log entry 8). -/
inductive PushResult where
  | ok (s : State)
  | overflow
  | invalid
  deriving DecidableEq, Repr

/-- The answer of `Pop` (R30). `invalid` is the model's own, for `SP` 17 to 31 (log entry 8). -/
inductive PopResult where
  | ok (address : Word) (s : State)
  | underflow
  | invalid
  deriving DecidableEq, Repr

/-- `Push(a)` (R29). -/
def State.push (s : State) (a : Word) : PushResult :=
  if s.sp = 16 then .overflow
  else if h : s.sp.toNat < stackDepth then
    .ok { s with stack := s.stack.set s.sp.toNat a, sp := s.sp + 1 }
  else .invalid

/-- `Pop()`; the popped entry keeps its value in storage (R30, R27). -/
def State.pop (s : State) : PopResult :=
  if s.sp = 0 then .underflow
  else if h : (s.sp - 1).toNat < stackDepth then
    .ok s.stack[(s.sp - 1).toNat] { s with sp := s.sp - 1 }
  else .invalid

/-! ## The parts of a step around its instruction (40_cycle.md R91) -/

/-- The fetch: the word at `PC`, if both its bytes exist, which is exactly when `PC ≤ 0x0FFE` (R92, R57). -/
def State.fetch (s : State) : Option Word :=
  match s.memRead s.pc.toNat, s.memRead (s.pc.toNat + 1) with
  | some first, some second => some (wordOfBytes first second)
  | _, _ => none

/-- The state in which an instruction executes: `PC` advanced by 2 (R93), an empty event list. -/
def State.fetched (s : State) : State := { s with pc := s.pc + 2, outcome := .ok [] }

/-- `UNREC_CNT` plus one, saturating at 0xFFFF (R33, R96). -/
def countUp (n : Word) : Word := if n = 0xFFFF then 0xFFFF else n + 1

/-- Count one unrecognised word. -/
def State.countUnrecognised (s : State) : State := { s with unrecCnt := countUp s.unrecCnt }

/-- Put a word into memory as it is stored, most significant byte first (20_memory.md R54, 30_encoding.md R84). -/
def State.storeWord (s : State) (a : Nat) (w : Word) : State :=
  { s with mem := Memory.writeBytes s.cfg.glyphTable s.mem a [firstByte w, secondByte w] }

end Sys2Proof.Machine
end

