-- ==== Sys2Proof/Machine/Flags.lean ====
section
/-! DEFINITION. Every flag computation of the core and the order in which flag and result are written (10_state.md
R22; 45_alu.md R134; 46_alu_ext.md R140 to R144). The flag is a byte, 0x00 or 0x01, stored in `V[15]`. -/

namespace Sys2Proof.Machine

/-- A flag as the byte that is stored (R22). -/
def flagByte (b : Bool) : Byte := if b then 1 else 0

/-- The sum of two bytes in 9 bits, without wrap (R134). -/
def wideSum (a b : Byte) : BitVec 9 := a.setWidth 9 + b.setWidth 9

/-- The carry of `ADD Vx, Vy`: the true sum exceeds 255 (R134). -/
def carryOut (a b : Byte) : Bool := decide (wideSum a b > 255)

/-- The stored result of `ADD Vx, Vy`: bits 7:0 of the sum (R134). -/
def sumByte (a b : Byte) : Byte := (wideSum a b).extractLsb' 0 8

/-- The flag of `a - b`: 1 means NO borrow, equal operands included (R140, R142, R144). PRESUMED by the spec (log
entry 11). -/
def noBorrow (a b : Byte) : Bool := decide (a ≥ b)

/-- The bit that `SHR` shifts out, bit 0 (R141). PRESUMED by the spec (log entry 12). -/
def lowBit (a : Byte) : Bool := a.getLsbD 0

/-- The bit that `SHL` shifts out, bit 7 (R143). PRESUMED by the spec (log entry 12). -/
def highBit (a : Byte) : Bool := a.getLsbD 7

/-- The two writes of a flag-writing instruction: the flag into `V[15]` first, then the result into `V[x]`, so that
with `x = 15` the result is what remains (R134, R144, 70_reset_and_hazards.md R189). -/
def State.writeFlagThenResult (s : State) (x : Reg) (flag : Bool) (result : Byte) : State :=
  (s.setReg flagReg (flagByte flag)).setReg x result

end Sys2Proof.Machine
end

