-- ==== Sys2Proof/Machine/Operands.lean ====
section
/-! DEFINITION. The operand forms (30_encoding.md R74): a `V` register, a pair of them, an immediate byte, an absolute
address. There are no others. -/

namespace Sys2Proof.Machine

/-- The values of `V[x]` and `V[y]`, both read before any write of the instruction (45_alu.md R134, D10; log entry
13). -/
def State.operands (s : State) (x y : Reg) : Byte × Byte := (s.reg x, s.reg y)

/-- The immediate `kk` is used as it stands in the word, unsigned (R74). -/
def immediate (kk : Byte) : Byte := kk

/-- The target of `JP` and `CALL`: `nnn` zero-extended to 16 bits (R74). -/
def target (nnn : Addr12) : Word := nnn.setWidth 16

end Sys2Proof.Machine
end

