-- ==== Sys2Proof/Machine/Alu.lean ====
section
/-! DEFINITION. The register-register ALU group (45_alu.md). -/

namespace Sys2Proof.Machine

/-- `LD Vx, Vy` (R130). -/
def execLdReg (x y : Reg) (s : State) : Host.Outcome State Fault Refusal := .next (s.setReg x (s.reg y))

/-- `OR Vx, Vy`: no flag is written (R131). -/
def execOrReg (x y : Reg) (s : State) : Host.Outcome State Fault Refusal :=
  let (a, b) := s.operands x y
  .next (s.setReg x (a ||| b))

/-- `AND Vx, Vy`: no flag is written (R132). -/
def execAndReg (x y : Reg) (s : State) : Host.Outcome State Fault Refusal :=
  let (a, b) := s.operands x y
  .next (s.setReg x (a &&& b))

/-- `XOR Vx, Vy`: no flag is written (R133). -/
def execXorReg (x y : Reg) (s : State) : Host.Outcome State Fault Refusal :=
  let (a, b) := s.operands x y
  .next (s.setReg x (a ^^^ b))

/-- `ADD Vx, Vy`: the carry into `V[15]`, then the sum modulo 256 into `V[x]`, both from one sum of the operands read
before either write (R134). -/
def execAddReg (x y : Reg) (s : State) : Host.Outcome State Fault Refusal :=
  let (a, b) := s.operands x y
  .next (s.writeFlagThenResult x (carryOut a b) (sumByte a b))

end Sys2Proof.Machine
end

