-- ==== Sys2Proof/Machine/AluExt.lean ====
section
/-! DEFINITION. The ALU extension (46_alu_ext.md). The decoder gives these instructions only when `ALU_EXT` is true
(00_scope.md R9); the meanings do not look at the parameter again (log entry 23). -/

namespace Sys2Proof.Machine

/-- `SUB Vx, Vy` (R140). -/
def execSub (x y : Reg) (s : State) : Host.Outcome State Fault Refusal :=
  let (a, b) := s.operands x y
  .next (s.writeFlagThenResult x (noBorrow a b) (a - b))

/-- `SHR Vx`: logical, by one; `y` is ignored (R141). -/
def execShr (x _y : Reg) (s : State) : Host.Outcome State Fault Refusal :=
  .next (s.writeFlagThenResult x (lowBit (s.reg x)) (s.reg x >>> 1))

/-- `SUBN Vx, Vy` (R142). -/
def execSubn (x y : Reg) (s : State) : Host.Outcome State Fault Refusal :=
  let (a, b) := s.operands x y
  .next (s.writeFlagThenResult x (noBorrow b a) (b - a))

/-- `SHL Vx`: by one; `y` is ignored (R143). -/
def execShl (x _y : Reg) (s : State) : Host.Outcome State Fault Refusal :=
  .next (s.writeFlagThenResult x (highBit (s.reg x)) (s.reg x <<< 1))

end Sys2Proof.Machine
end

