-- ==== Sys2Proof/Machine/ControlFlow.lean ====
section
/-! DEFINITION. Control transfer (42_control_flow.md). The fallible stack operation comes before any other write
(40_cycle.md R97). -/

namespace Sys2Proof.Machine

/-- `RET` (R105): pop into `PC`; at depth 0 the fault StackUnderflow, with nothing else written. -/
def execRet (s : State) : Host.Outcome State Fault Refusal :=
  match s.pop with
  | .ok address t => .next (t.setPc address)
  | .underflow => .next (s.raise .stackUnderflow)
  | .invalid => .fault .stackPointerInvalid

/-- `JP nnn` (R106). -/
def execJp (nnn : Addr12) (s : State) : Host.Outcome State Fault Refusal := .next (s.setPc (target nnn))

/-- `CALL nnn` (R107): push the advanced `PC`, then jump; at depth 16 the fault StackOverflow, with nothing else
written. -/
def execCall (nnn : Addr12) (s : State) : Host.Outcome State Fault Refusal :=
  match s.push s.pc with
  | .ok t => .next (t.setPc (target nnn))
  | .overflow => .next (s.raise .stackOverflow)
  | .invalid => .fault .stackPointerInvalid

end Sys2Proof.Machine
end

