-- ==== Sys2Proof/Machine/Display.lean ====
section
/-! DEFINITION. The display instruction (41_display.md). -/

namespace Sys2Proof.Machine

/-- `CLS`: asks the Screen Collaborator to clear; no register changes (R100). -/
def execCls (s : State) : Host.Outcome State Fault Refusal := .next (s.emit .screenClear)

end Sys2Proof.Machine
end

