-- ==== Sys2Proof/Machine/Immediate.lean ====
section
/-! DEFINITION. The register-immediate instructions (44_immediate.md). -/

namespace Sys2Proof.Machine

/-- `LD Vx, kk` (R125). -/
def execLdImm (x : Reg) (kk : Byte) (s : State) : Host.Outcome State Fault Refusal :=
  .next (s.setReg x (immediate kk))

/-- `ADD Vx, kk`: modulo 256, no flag is written (R126). -/
def execAddImm (x : Reg) (kk : Byte) (s : State) : Host.Outcome State Fault Refusal :=
  .next (s.setReg x (s.reg x + immediate kk))

end Sys2Proof.Machine
end

