-- ==== Sys2Proof/Machine/Skip.lean ====
section
/-! DEFINITION. The conditional skips (43_skip.md). -/

namespace Sys2Proof.Machine

/-- `SE Vx, kk` (R115). -/
def execSeImm (x : Reg) (kk : Byte) (s : State) : Host.Outcome State Fault Refusal :=
  .next (s.skipIf (s.reg x == immediate kk))

/-- `SNE Vx, kk` (R116). -/
def execSneImm (x : Reg) (kk : Byte) (s : State) : Host.Outcome State Fault Refusal :=
  .next (s.skipIf (s.reg x != immediate kk))

/-- `SE Vx, Vy` (R117). -/
def execSeReg (x y : Reg) (s : State) : Host.Outcome State Fault Refusal :=
  let (a, b) := s.operands x y
  .next (s.skipIf (a == b))

end Sys2Proof.Machine
end

