-- ==== Sys2Proof/Machine/Unrecognised.lean ====
section
/-! DEFINITION. What an unrecognised word does (40_cycle.md R96; log entry 9). -/

namespace Sys2Proof.Machine

/-- The word `w` fetched from `addr` matched no row of the opcode table: it is counted, saturating, and reported, and
nothing else happens (R96). -/
def execUnrecognised (w addr : Word) (s : State) : Host.Outcome State Fault Refusal :=
  .next (s.countUnrecognised.emit (.unrecognized w addr))

end Sys2Proof.Machine
end

