-- ==== Sys2Proof/Machine/Step.lean ====
section
/-! DEFINITION. One step (40_cycle.md R91). -/

namespace Sys2Proof.Machine

/-- One step request: halted check, fetch with its range check, advance of `PC`, decode, execute, in this order. -/
def step (s : State) : Host.Outcome State Fault Refusal :=
  if s.fault = 0 then
    match s.fetch with
    | none => .next (s.raise .fetchOutOfRange)
    | some w =>
      match decode s.cfg.aluExt w with
      | .instr i => exec i s.fetched
      | .unrecognised u => execUnrecognised u s.pc s.fetched
  else .next s.halt

/-- The state with an instruction word stored where the next step fetches it: at `PC`, most significant byte first.
Nothing else changes; a running core whose `PC` is at most 0x0FFE then runs exactly that word (log entry 17). -/
def State.withFetchWord (s : State) (nbits w : Nat) : State :=
  s.storeWord s.pc.toNat (BitVec.ofNat 16 (w % 2 ^ nbits))

end Sys2Proof.Machine
end

