-- ==== Sys2Proof/Machine/HostPort.lean ====
section
/-! DEFINITION. What the host can do to the core between steps (70_reset_and_hazards.md R185): `init`, `load`, a step
request, writes of the timers, reads. It can do nothing else (log entry 15). -/

namespace Sys2Proof.Machine

/-- `init`: every piece of state to its reset value, in any state, running or halted (R175, R176). The parameters are
the core's own and stay. -/
def State.initialise (s : State) : State := State.init s.cfg

/-- The answer of `load` (R179, R185). -/
inductive LoadResult where
  | ok (s : State)
  | loadTooLarge
  deriving DecidableEq, Repr

/-- `load(buffer, size)`, the image given as the list of its `size` bytes (log entry 14): accepted exactly when
`size + 512 < 4096`, that is `size ≤ 3583` (R7); copies the bytes to 512 and up and sets `PC` to 0x0200, in any state (R178, R179, R180). -/
def State.load (s : State) (image : List Byte) : LoadResult :=
  if image.length ≤ maxProgramSize then
    .ok { s with mem := Memory.writeBytes s.cfg.glyphTable s.mem programOrigin image
                 pc  := BitVec.ofNat 16 programOrigin }
  else .loadTooLarge

/-- The host stores a byte in `DT` (R31). -/
def State.writeDT (s : State) (b : Byte) : State := { s with dt := b }

/-- The host stores a byte in `ST` (R31). -/
def State.writeST (s : State) (b : Byte) : State := { s with st := b }

/-- The requests of R185. -/
inductive Request where
  | init
  | load (image : List Byte)
  | step
  | writeDT (b : Byte)
  | writeST (b : Byte)
  | readState
  deriving DecidableEq, Repr

/-- The core serves one request. A refused `load` and a read of state change nothing (R179, R185). -/
def serve (r : Request) (s : State) : Host.Outcome State Fault Refusal :=
  match r with
  | .init => .next s.initialise
  | .load image =>
    match s.load image with
    | .ok t => .next t
    | .loadTooLarge => .next s
  | .step => step s
  | .writeDT b => .next (s.writeDT b)
  | .writeST b => .next (s.writeST b)
  | .readState => .next s

/-- The core serves requests one after another; requests are totally ordered and never overlap a step (20_memory.md
R58, R185). -/
def serveAll : List Request → State → Host.Outcome State Fault Refusal
  | [], s => .next s
  | r :: rs, s =>
    match serve r s with
    | .next t => serveAll rs t
    | .fault f => .fault f
    | .refused f => .refused f

end Sys2Proof.Machine
end

