-- ==== Sys2Proof/Safety.lean ====
section
/-! DEFINITION. The terms in which claims about the machine are stated: the invariant of a core, the states a host can
bring about, the instruction a step is about to execute, a finished program, and what "everything else is unchanged"
means. -/

namespace Sys2Proof.Machine

/-- The depth is 0 to 16 (10_state.md R28). -/
abbrev State.DepthOk (s : State) : Prop := s.sp.toNat ≤ stackDepth

/-- What holds of every state between steps: the memory is in its canonical form, the depth is 0 to 16 (R28), `PC` is
at most 0x1002 (R25), every valid stack entry is 0x0002 to 0x1000 (42_control_flow.md R105), and `I` is 0 (R26). -/
abbrev State.Inv (s : State) : Prop :=
  Memory.wf s.cfg.glyphTable s.mem ∧ s.DepthOk ∧ s.pc.toNat ≤ 0x1002 ∧
    (∀ k : Fin 16, k.val < s.sp.toNat → 2 ≤ s.stack[k.val].toNat ∧ s.stack[k.val].toNat ≤ 0x1000) ∧ s.i = 0

/-- The states a host can bring about by the requests of 70_reset_and_hazards.md R185, on any configuration. -/
inductive Reachable : State → Prop where
  | init (c : Config) : Reachable (State.init c)
  | request {s t : State} (r : Request) (hs : Reachable s) (h : serve r s = .next t) : Reachable t

/-- The next step of `s` executes the instruction `i`: the core runs, the fetch succeeds and the word decodes to `i`
(40_cycle.md R91). -/
def State.Executes (s : State) (i : Instr) : Prop :=
  s.fault = 0 ∧ ∃ w, s.fetch = some w ∧ decode s.cfg.aluExt w = .instr i

/-- The next step of `s` executes the unrecognised word `w` (R96). -/
def State.ExecutesUnrecognised (s : State) (w : Word) : Prop :=
  s.fault = 0 ∧ s.fetch = some w ∧ decode s.cfg.aluExt w = .unrecognised w

/-- A program has finished: the core runs and `PC` is at a jump to itself (70_reset_and_hazards.md R187). -/
def State.Finished (s : State) : Prop := ∃ nnn, s.Executes (.jp nnn) ∧ target nnn = s.pc

/-- A clean run so far: no fault and no unrecognised word (R183, 40_cycle.md R96). -/
abbrev State.Clean (s : State) : Prop := s.fault = 0 ∧ s.unrecCnt = 0

/-- Every byte of memory reads as before. -/
def SameMemory (s t : State) : Prop := ∀ a, t.memRead a = s.memRead a

/-- Every `V` register reads as before. -/
def SameRegs (s t : State) : Prop := ∀ r, t.reg r = s.reg r

/-- Every `V` register but `x` reads as before. -/
def SameRegsBut (x : Reg) (s t : State) : Prop := ∀ r, r ≠ x → t.reg r = s.reg r

/-- `SP` and every stack entry are as before. -/
def SameStack (s t : State) : Prop := t.sp = s.sp ∧ t.stack = s.stack

/-- `I`, the timers, memory, `UNREC_CNT` and the parameters are as before: what no instruction of the table writes
(10_state.md R40). -/
def SameStore (s t : State) : Prop :=
  t.i = s.i ∧ t.dt = s.dt ∧ t.st = s.st ∧ SameMemory s t ∧ t.unrecCnt = s.unrecCnt ∧ t.cfg = s.cfg

/-- The core goes on as before: no fault and no event. -/
def SameStatus (s t : State) : Prop := t.fault = s.fault ∧ t.outcome = s.outcome

/-- Everything but the `V` registers and `PC` is as before. -/
def SameBesidesRegsAndPc (s t : State) : Prop := SameStack s t ∧ SameStore s t ∧ SameStatus s t

/-- Everything but the `V` registers is as before. -/
def SameBesidesRegs (s t : State) : Prop := t.pc = s.pc ∧ SameBesidesRegsAndPc s t

/-- Everything but the stack entries at and above `SP` is as before: what no program can tell apart (10_state.md R27). -/
def SameButDeadEntries (s t : State) : Prop :=
  t = { s with stack := t.stack } ∧ ∀ k : Fin 16, k.val < s.sp.toNat → t.stack[k.val] = s.stack[k.val]

/-- Calls nested one in another, executed one after the other (10_state.md R29). -/
def callNested : List Addr12 → State → Host.Outcome State Fault Refusal
  | [], s => .next s
  | nnn :: rest, s =>
    match exec (.call nnn) s with
    | .next t => callNested rest t
    | .fault f => .fault f
    | .refused f => .refused f

/-- Everything but `PC` is as before. -/
def SameBesidesPc (s t : State) : Prop := SameRegs s t ∧ SameBesidesRegsAndPc s t

end Sys2Proof.Machine
end

