-- ==== Sys2Proof/Certificates/Slice0/Obligations.lean ====
section
/-! DEFINITION. The statements for the provers, from the numbered rules of spec/. An instruction's own statements start
in the state in which it executes: `PC` already holds its address plus 2 (00_scope.md R16). -/

open Sys2Proof Sys2Proof.Machine

/-! ## Initialisation, loading, the host -/

/-- R175: `init`, from any state and for any glyph table, leaves every register, the stack, the timers, `FAULT` and
`UNREC_CNT` zero, the glyph table at 0 to 79, and zero at 80 to 4095. -/
def Obligations.InitZeroesStateAndCopiesGlyphs : Prop :=
  ∀ s : State, ∃ t, serve .init s = .next t ∧
    (∀ r, t.reg r = 0) ∧ t.pc = 0 ∧ t.i = 0 ∧ t.sp = 0 ∧ (∀ k : Fin 16, t.stack[k.val] = 0) ∧
    t.dt = 0 ∧ t.st = 0 ∧
    (∀ (a : Nat) (h : a < 80), t.memRead a = some s.cfg.glyphTable[a]) ∧
    (∀ a : Nat, 80 ≤ a → a ≤ 4095 → t.memRead a = some 0) ∧
    t.fault = 0 ∧ t.unrecCnt = 0

/-- The reset state holds the values of 10_state.md R36 in every register, stack entry and byte of memory, the bytes 0 to
79 being the default glyphs of R37, read as sixteen 40-bit numbers. The glyph bytes are the spec's from general
knowledge (log entry 3), and `ALU_EXT` true is the model's choice (log entry 2). -/
def Obligations.ResetHoldsTheDefaultGlyphs : Prop :=
  (List.range 16).map (fun d => (List.range 5).foldl
      (fun n j => n * 256 + ((State.reset.memRead (5 * d + j)).getD 0).toNat) 0) =
    [0xF0909090F0, 0x2060202070, 0xF010F080F0, 0xF010F010F0, 0x9090F01010, 0xF080F010F0, 0xF080F090F0, 0xF010204040,
     0xF090F090F0, 0xF090F010F0, 0xF090F09090, 0xE090E090E0, 0xF0808080F0, 0xE0909090E0, 0xF080F080F0, 0xF080F08080] ∧
  (∀ a : Nat, 80 ≤ a → a ≤ 4095 → State.reset.memRead a = some 0) ∧
  (∀ a : Nat, 4095 < a → State.reset.memRead a = none) ∧
  (∀ r, State.reset.reg r = 0) ∧ State.reset.pc = 0 ∧ State.reset.i = 0 ∧ State.reset.sp = 0 ∧
  (∀ k : Fin 16, State.reset.stack[k.val] = 0) ∧ State.reset.dt = 0 ∧ State.reset.st = 0 ∧
  State.reset.fault = 0 ∧ State.reset.unrecCnt = 0 ∧ State.reset.cfg.aluExt = true

/-- R7, R179: an image is accepted exactly when `size + 512 < 4096`, that is `size ≤ 3583`; otherwise the answer is
LoadTooLarge and no state changes. That the bound alone decides, in every state and not only in the one `init` leaves,
is R180's own decision D16, and the model takes it so (log entry 14). -/
def Obligations.LoadAcceptedExactlyWhenImageFits : Prop :=
  maxProgramSize = 3583 ∧ ∀ (s : State) (image : List Byte),
    ((∃ t, s.load image = .ok t) ↔ image.length + 512 < 4096) ∧
    ((∃ t, s.load image = .ok t) ↔ image.length ≤ maxProgramSize) ∧
    (¬ image.length + 512 < 4096 → s.load image = .loadTooLarge ∧ serve (.load image) s = .next s)

/-- R178: `load` copies the image to 512 and up, sets `PC` to 0x0200 and writes nothing else. That it does so in every
state, and not only in the one `init` leaves, is R180's own decision D16, and the model takes it so (log entry 14). -/
def Obligations.LoadCopiesImageAndSetsPc : Prop :=
  ∀ (s : State) (image : List Byte), image.length + 512 < 4096 →
    ∃ t, serve (.load image) s = .next t ∧ t.pc = 0x0200 ∧
      (∀ (k : Nat) (h : k < image.length), t.memRead (512 + k) = some image[k]) ∧
      (∀ a : Nat, a < 512 ∨ 512 + image.length ≤ a → t.memRead a = s.memRead a) ∧
      SameRegs s t ∧ SameStack s t ∧ SameStatus s t ∧
      t.i = s.i ∧ t.dt = s.dt ∧ t.st = s.st ∧ t.unrecCnt = s.unrecCnt ∧ t.cfg = s.cfg

/-- The host may store any byte in either timer between steps, and that changes nothing else (10_state.md section 4,
decision D21). -/
def Obligations.HostTimerWriteStoresTheByteOnly : Prop :=
  ∀ (s : State) (b : Byte),
    (∃ t, serve (.writeDT b) s = .next t ∧ t.dt = b ∧ t.st = s.st ∧ t.i = s.i ∧ SameMemory s t ∧
      t.unrecCnt = s.unrecCnt ∧ t.cfg = s.cfg ∧ t.pc = s.pc ∧ SameRegs s t ∧ SameStack s t ∧ SameStatus s t) ∧
    (∃ t, serve (.writeST b) s = .next t ∧ t.st = b ∧ t.dt = s.dt ∧ t.i = s.i ∧ SameMemory s t ∧
      t.unrecCnt = s.unrecCnt ∧ t.cfg = s.cfg ∧ t.pc = s.pc ∧ SameRegs s t ∧ SameStack s t ∧ SameStatus s t)

/-- Nothing but `init` clears a latched fault or lowers the counter, and no request of the host changes the
parameters (10_state.md section 4, decisions D13, D5, D16). -/
def Obligations.OnlyInitClearsFaultAndCounter : Prop :=
  ∀ (r : Request) (s t : State), serve r s = .next t →
    t.cfg = s.cfg ∧
    (s.fault ≠ 0 → t.fault ≠ s.fault → r = .init) ∧
    (t.unrecCnt.toNat < s.unrecCnt.toNat → r = .init)

/-- Once halted, a core stays halted with the same code, and its registers, stack, `I` and counter stay as the fault left
them, whatever the host requests short of `init` (60_exceptions.md section 2, decisions D13 and D16). -/
def Obligations.HaltedCoreStaysHaltedUntilInit : Prop :=
  ∀ (requests : List Request) (s t : State), s.fault ≠ 0 → .init ∉ requests → serveAll requests s = .next t →
    t.fault = s.fault ∧ SameRegs s t ∧ SameStack s t ∧ t.i = s.i ∧ t.unrecCnt = s.unrecCnt ∧ t.cfg = s.cfg

/-! ## Invariants and progress -/

/-- The reset state meets the invariant. The canonical form of memory in it is the model's own (log entry 18). -/
def Obligations.ResetMeetsTheMachineInvariant : Prop := State.reset.Inv

/-- Every step keeps the invariant: canonical memory, depth 0 to 16, `PC` at most 0x1002, valid stack entries 0x0002 to
0x1000, `I` zero (10_state.md R25, R26, R28; 42_control_flow.md R105). The canonical form of memory is the model's own (log
entry 18). -/
def Obligations.StepKeepsTheMachineInvariant : Prop :=
  ∀ s t : State, s.Inv → step s = .next t → t.Inv

/-- Every request of the host keeps the invariant, from every state that meets it: `init`, `load`, a step, the writes of the
timers, a read. `init` establishes it on any configuration; so it holds of every state a host can bring about. The
canonical form of memory in it is the model's own (log entry 18). -/
def Obligations.ReachableStatesMeetTheMachineInvariant : Prop :=
  (∀ c : Config, (State.init c).Inv) ∧
  (∀ (r : Request) (s t : State), s.Inv → serve r s = .next t → t.Inv) ∧
  ∀ s : State, Reachable s → s.Inv

/-- A step request always has an answer: from every state whose depth is 0 to 16 the step gives a next state, again
of such a depth. The model never stops on a state the spec describes. -/
def Obligations.StepAlwaysAnswersNextState : Prop :=
  ∀ s : State, s.DepthOk → ∃ t, step s = .next t ∧ t.DepthOk

/-! ## The step -/

/-- The word fetched is the byte at `PC` times 256 plus the byte at `PC + 1`: most significant byte first, the spec's
decision D1 (log entry 4). -/
def Obligations.FetchReadsMostSignificantByteFirst : Prop :=
  ∀ s : State, s.pc.toNat ≤ 4094 → ∃ a b w,
    s.memRead s.pc.toNat = some a ∧ s.memRead (s.pc.toNat + 1) = some b ∧ s.fetch = some w ∧
    w.toNat = a.toNat * 256 + b.toNat

/-- The fetch is impossible exactly when `PC > 0x0FFE`; no address wraps (decision D2, D3; odd addresses are like even
ones, D4). -/
def Obligations.FetchFailsExactlyBeyondMemory : Prop :=
  ∀ s : State, s.fetch = none ↔ s.pc > 0x0FFE

/-- On a running core, when the two bytes at `PC` decode to an instruction, the step is `exec` of it in the state whose
`PC` is advanced by 2 and whose event list is empty, and the instruction is one the core has. -/
def Obligations.StepRunsTheDecodedInstruction : Prop :=
  ∀ (s : State) (a b : Byte) (i : Instr), s.fault = 0 →
    s.memRead s.pc.toNat = some a → s.memRead (s.pc.toNat + 1) = some b →
    decodeBytes s.cfg.aluExt a b = .instr i →
    step s = exec i { s with pc := s.pc + 2, outcome := .ok [] } ∧ i.wellFormed s.cfg.aluExt = true

/-- An unrecognised word is counted, saturating at 0xFFFF, reported with the address it was fetched from, and otherwise
only advances `PC`; the core goes on (decision D5, log entry 9). -/
def Obligations.UnrecognisedWordIsCountedAndReported : Prop :=
  ∀ (s : State) (w : Word), s.ExecutesUnrecognised w → ∃ t, step s = .next t ∧
    t.unrecCnt.toNat = min (s.unrecCnt.toNat + 1) 0xFFFF ∧
    t.outcome = .ok [.unrecognized w s.pc] ∧ t.pc = s.pc + 2 ∧ t.fault = 0 ∧
    SameRegs s t ∧ SameStack s t ∧ SameMemory s t ∧ t.i = s.i ∧ t.dt = s.dt ∧ t.st = s.st ∧ t.cfg = s.cfg

/-- A step of a running core whose `PC` is above 0x0FFE latches code 3 and changes nothing else (decision D2, log
entry 7). -/
def Obligations.FetchBeyondMemoryFaults : Prop :=
  ∀ s : State, s.fault = 0 → s.pc > 0x0FFE → ∃ t, step s = .next t ∧
    t.fault = 3 ∧ t.outcome = .fault .fetchOutOfRange ∧ t.pc = s.pc ∧
    SameRegs s t ∧ SameStack s t ∧ SameStore s t

/-- A halted core answers `halted` and changes nothing (decision D13). -/
def Obligations.HaltedCoreChangesNothing : Prop :=
  ∀ s : State, s.fault ≠ 0 → ∃ t, step s = .next t ∧
    t.outcome = .halted ∧ t.fault = s.fault ∧ t.pc = s.pc ∧ SameRegs s t ∧ SameStack s t ∧ SameStore s t

/-- The list of faults is complete, and each is precise: a running core that faults does so by CALL at depth 16, by RET
at depth 0 (both with `PC` advanced), or by a fetch beyond memory (`PC` unchanged), and apart from `PC` and `FAULT`
everything is as before the step (60_exceptions.md sections 1 and 2, decisions D2, D13, D14). -/
def Obligations.FaultsAreExactlyTheThreeAndPrecise : Prop :=
  ∀ s t : State, s.fault = 0 → step s = .next t → t.fault ≠ 0 →
    ((t.fault = 1 ∧ t.outcome = .fault .stackOverflow ∧ (∃ nnn, s.Executes (.call nnn)) ∧ s.sp = 16 ∧
        t.pc = s.pc + 2) ∨
      (t.fault = 2 ∧ t.outcome = .fault .stackUnderflow ∧ s.Executes .ret ∧ s.sp = 0 ∧ t.pc = s.pc + 2) ∨
      (t.fault = 3 ∧ t.outcome = .fault .fetchOutOfRange ∧ s.pc > 0x0FFE ∧ t.pc = s.pc)) ∧
    SameRegs s t ∧ SameStack s t ∧ SameStore s t

/-- A step answers exactly one of `ok` with at most one event, `fault` with the cause that `FAULT` now holds, or
`halted` when the core was halted (40_cycle.md section "Outcome of a step"; that the answer stands in the state is
the model's choice, log entry 6). -/
def Obligations.OutcomeAgreesWithFaultRegister : Prop :=
  ∀ s t : State, step s = .next t →
    (∃ events, t.outcome = .ok events ∧ events.length ≤ 1 ∧ s.fault = 0 ∧ t.fault = 0) ∨
    (∃ c, t.outcome = .fault c ∧ s.fault = 0 ∧ t.fault = c.code) ∨
    (t.outcome = .halted ∧ s.fault ≠ 0 ∧ t.fault = s.fault)

/-- `ScreenClear` is emitted by CLS only, and always by it; `Unrecognized(w, a)` exactly when the word `w` fetched from
`a` is unrecognised. -/
def Obligations.EventsNameTheirSource : Prop :=
  ∀ (s t : State) (events : List Event), step s = .next t → t.outcome = .ok events →
    (.screenClear ∈ events ↔ s.Executes .cls) ∧
    ∀ w a, (.unrecognized w a ∈ events ↔ s.ExecutesUnrecognised w ∧ a = s.pc)

/-- `UNREC_CNT` counts the unrecognised words executed and nothing else, saturating. -/
def Obligations.CounterCountsExactlyUnrecognisedWords : Prop :=
  ∀ s t : State, step s = .next t →
    ((∃ w, s.ExecutesUnrecognised w) → t.unrecCnt.toNat = min (s.unrecCnt.toNat + 1) 0xFFFF) ∧
    ((∀ w, ¬ s.ExecutesUnrecognised w) → t.unrecCnt = s.unrecCnt)

/-- No step writes `I`, `DT`, `ST`, a byte of memory, or the parameters. -/
def Obligations.NoStepWritesIndexTimersOrMemory : Prop :=
  ∀ s t : State, step s = .next t →
    t.i = s.i ∧ t.dt = s.dt ∧ t.st = s.st ∧ SameMemory s t ∧ t.cfg = s.cfg

/-- R108: CALL moves the depth from `d` to `d + 1` below 16 and fails at 16, RET moves it down above 0 and fails at 0,
no other instruction changes it; and a CALL followed at once by a RET restores `PC` to the instruction after the
call and the depth to what it was. -/
def Obligations.CallReturnDepthMachine : Prop :=
  (∀ (s : State) (nnn : Addr12), s.Executes (.call nnn) →
    (s.sp.toNat < 16 → ∃ t, step s = .next t ∧ t.sp.toNat = s.sp.toNat + 1 ∧ t.fault = 0) ∧
    (s.sp.toNat = 16 → ∃ t, step s = .next t ∧ t.sp = s.sp ∧ t.fault ≠ 0)) ∧
  (∀ s : State, s.Executes .ret →
    (0 < s.sp.toNat → s.sp.toNat ≤ 16 → ∃ t, step s = .next t ∧ t.sp.toNat = s.sp.toNat - 1 ∧ t.fault = 0) ∧
    (s.sp.toNat = 0 → ∃ t, step s = .next t ∧ t.sp = s.sp ∧ t.fault ≠ 0)) ∧
  (∀ (s t : State) (i : Instr), s.Executes i → (∀ nnn, i ≠ .call nnn) → i ≠ .ret → step s = .next t →
    t.sp = s.sp ∧ t.stack = s.stack) ∧
  (∀ (s t : State) (nnn : Addr12), s.Executes (.call nnn) → s.sp.toNat < 16 → step s = .next t → t.Executes .ret →
    ∃ u, step t = .next u ∧ u.pc = s.pc + 2 ∧ u.sp = s.sp)

/-- A `V` register changes only by an instruction that names it as `x`, and `V[15]` moreover by the flag writers; the
flag writers are ADD Vx, Vy and the extension, no others (10_state.md section 2). -/
def Obligations.RegistersChangeOnlyByTheirInstructions : Prop :=
  ∀ (s t : State) (r : Reg), step s = .next t → t.reg r ≠ s.reg r → ∃ i, s.Executes i ∧
    ((∃ kk, i = .ldImm r kk ∨ i = .addImm r kk) ∨
      (∃ y, i = .ldReg r y ∨ i = .orReg r y ∨ i = .andReg r y ∨ i = .xorReg r y) ∨
      ∃ x y, (i = .addReg x y ∨ i = .sub x y ∨ i = .shr x y ∨ i = .subn x y ∨ i = .shl x y) ∧ (x = r ∨ r = 15))

/-- How a step that fetches leaves `PC`: two further, four further by a skip only, at `nnn` by JP and CALL only, at the
top stack entry by RET only (10_state.md section 3). -/
def Obligations.PcLeavesSequenceOnlyByControlTransfer : Prop :=
  ∀ s t : State, s.fault = 0 → s.pc ≤ 0x0FFE → step s = .next t →
    t.pc = s.pc + 2 ∨
    (t.pc = s.pc + 4 ∧ ∃ x y kk, s.Executes (.seImm x kk) ∨ s.Executes (.sneImm x kk) ∨ s.Executes (.seReg x y)) ∨
    (∃ nnn, (s.Executes (.jp nnn) ∨ s.Executes (.call nnn)) ∧ t.pc.toNat = nnn.toNat) ∨
    (s.Executes .ret ∧ 0 < s.sp.toNat ∧ s.stack[s.sp.toNat - 1]? = some t.pc)

/-- A finished program stays finished: at a jump to itself every further step leaves the state as it is
(70_reset_and_hazards.md section 5, decision D20; the outcome of the latest step is then `ok` with no event). -/
def Obligations.FinishedProgramStaysAsItIs : Prop :=
  ∀ (s : State) (n : Nat), s.Finished →
    Host.Core.run Sys2Proof.core (n + 1) s = .next { s with outcome := .ok [] }

/-- `I` and the timers cannot be observed: a step from a state with other values there does the same, and leaves those
other values (40_cycle.md section "Determinism"). -/
def Obligations.TimersAndIndexAreUnobservable : Prop :=
  ∀ (s t : State) (i : Word) (dt st : Byte), step s = .next t →
    step { s with i := i, dt := dt, st := st } = .next { t with i := i, dt := dt, st := st }

/-- The two bytes at `PC` are all that a step reads of memory: with any other memory that has them, the step does the
same, and leaves that other memory (20_memory.md section 5). -/
def Obligations.StepReadsMemoryOnlyAtPc : Prop :=
  ∀ (s t : State) (m : Memory), ({ s with mem := m } : State).memRead s.pc.toNat = s.memRead s.pc.toNat →
    ({ s with mem := m } : State).memRead (s.pc.toNat + 1) = s.memRead (s.pc.toNat + 1) → step s = .next t →
    step { s with mem := m } = .next { t with mem := m }

/-- `ALU_EXT` matters to the four forms of the extension only: a step that does not fetch a word of theirs is the same
for either value of the parameter (00_scope.md section 4, decision D7). -/
def Obligations.ExtensionParameterMattersToItsFormsOnly : Prop :=
  ∀ (s t : State) (aluExt : Bool), (∀ w, s.fetch = some w → ∀ row ∈ extensionRows, row.selects w = false) →
    step s = .next t →
    step { s with cfg := { s.cfg with aluExt := aluExt } } = .next { t with cfg := { t.cfg with aluExt := aluExt } }

/-- Dead stack entries cannot be observed: two states that differ only in entries at and above `SP` step to two states
that differ only there (10_state.md section 4, decision D11). -/
def Obligations.DeadStackEntriesAreUnobservable : Prop :=
  ∀ s s' t : State, SameButDeadEntries s s' → step s = .next t →
    ∃ t', step s' = .next t' ∧ SameButDeadEntries t t'

/-- A word placed where the next step fetches is the word it fetches, and nothing but memory changes; on the state a
program is loaded from outside with, this is how the host runs one instruction (log entry 17). -/
def Obligations.PlacedWordIsFetchedNext : Prop :=
  ∀ (s : State) (nbits w : Nat), s.pc ≤ 0x0FFE →
    (s.withFetchWord nbits w).fetch = some (BitVec.ofNat 16 (w % 2 ^ nbits)) ∧
    s.withFetchWord nbits w = { s with mem := (s.withFetchWord nbits w).mem } ∧
    ∀ a : Nat, a ≠ s.pc.toNat → a ≠ s.pc.toNat + 1 → (s.withFetchWord nbits w).memRead a = s.memRead a

/-! ## Encoding -/

/-- The bytes of a well-formed instruction decode to it, with every operand at every value. -/
def Obligations.DecodeOfEncodeIsTheInstruction : Prop :=
  ∀ (aluExt : Bool) (i : Instr), i.wellFormed aluExt = true →
    decodeBytes aluExt (firstByte (encode i)) (secondByte (encode i)) = .instr i

/-- No two words decode to one instruction: the word of a decoded instruction is the word it was decoded from, and the
decoder gives only instructions the core has. -/
def Obligations.EncodeOfDecodeIsTheWord : Prop :=
  ∀ (aluExt : Bool) (w : Word) (i : Instr), decode aluExt w = .instr i →
    encode i = w ∧ i.wellFormed aluExt = true

/-- The dispatch and the opcode table agree: a word decodes to an instruction exactly when it selects a row whose
condition holds, and then to that row's instruction (30_encoding.md section 3). -/
def Obligations.DecodeAgreesWithOpcodeTable : Prop :=
  ∀ (aluExt : Bool) (w : Word),
    (∀ i, decode aluExt w = .instr i →
      ∃ row ∈ opcodeTable, row.name = i.rowName ∧ row.enabled aluExt = true ∧ row.selects w = true) ∧
    (∀ row ∈ opcodeTable, row.enabled aluExt = true → row.selects w = true →
      ∃ i, decode aluExt w = .instr i ∧ i.rowName = row.name)

/-- The match and mask pairs are pairwise disjoint (30_encoding.md section 3). -/
def Obligations.OpcodeRowsArePairwiseDisjoint : Prop :=
  opcodeTable.Pairwise (fun r r' => ∀ w, ¬ (r.selects w = true ∧ r'.selects w = true))

/-- The unrecognised words are exactly those of the table of 30_encoding.md section 4, and the decoder hands each on
as it was fetched. -/
def Obligations.UnrecognisedWordsAreExactlyTheListed : Prop :=
  ∀ (aluExt : Bool) (w : Word),
    (decode aluExt w = .unrecognised w ↔
      (w.toNat < 0x1000 ∧ w ≠ 0x00E0 ∧ w ≠ 0x00EE) ∨
      (w.toNat / 0x1000 = 5 ∧ w.toNat % 16 ≠ 0) ∨
      (w.toNat / 0x1000 = 8 ∧ w.toNat % 16 ∈ [8, 9, 0xA, 0xB, 0xC, 0xD, 0xF]) ∨
      (w.toNat / 0x1000 = 8 ∧ w.toNat % 16 ∈ [5, 6, 7, 0xE] ∧ aluExt = false) ∨
      0x9000 ≤ w.toNat) ∧
    ∀ u, decode aluExt w = .unrecognised u → u = w

/-- R71: the fields of every word, as shifts and masks, and how they overlap. -/
def Obligations.FieldsAreShiftsAndMasks : Prop :=
  ∀ w : Word,
    (opField w).toNat = (w.toNat >>> 12) &&& 0xF ∧
    (xField w).val = (w.toNat >>> 8) &&& 0xF ∧
    (yField w).val = (w.toNat >>> 4) &&& 0xF ∧
    (nField w).toNat = w.toNat &&& 0xF ∧
    (kkField w).toNat = w.toNat &&& 0xFF ∧
    (nnnField w).toNat = w.toNat &&& 0xFFF ∧
    (kkField w).toNat = (yField w).val * 16 + (nField w).toNat ∧
    (nnnField w).toNat = (xField w).val * 256 + (yField w).val * 16 + (nField w).toNat ∧
    (nnnField w).toNat = (xField w).val * 256 + (kkField w).toNat

/-- Fourteen words of 95_test_vectors.md (E1 to E3, E5 to E11, E14 to E17) decode to the instructions they stand for, one of each family. -/
def Obligations.WordsOfTheSpecDecodeAsListed : Prop :=
  (∀ aluExt, decode aluExt 0x00E0 = .instr .cls ∧ decode aluExt 0x00EE = .instr .ret ∧
    decode aluExt 0x00E1 = .unrecognised 0x00E1 ∧ decode aluExt 0x4F00 = .instr (.sneImm 15 0x00) ∧
    decode aluExt 0x1ABC = .instr (.jp 0xABC) ∧ decode aluExt 0x2FFF = .instr (.call 0xFFF) ∧
    decode aluExt 0x3A42 = .instr (.seImm 10 0x42) ∧ decode aluExt 0x5120 = .instr (.seReg 1 2) ∧
    decode aluExt 0x6BFF = .instr (.ldImm 11 0xFF) ∧ decode aluExt 0x8AB4 = .instr (.addReg 10 11) ∧
    decode aluExt 0x5121 = .unrecognised 0x5121 ∧ decode aluExt 0x8AB8 = .unrecognised 0x8AB8) ∧
  decode true 0x8AB5 = .instr (.sub 10 11) ∧ decode false 0x8AB5 = .unrecognised 0x8AB5 ∧
  decode true 0x8ABE = .instr (.shl 10 11) ∧ decode false 0x8ABE = .unrecognised 0x8ABE

/-! ## The stack and control transfer -/

/-- R29: Push at depth 16 answers overflow and changes nothing; below, it stores at `stack[SP]` and adds one to `SP`;
sixteen nested CALLs succeed and a seventeenth reports overflow and leaves the executor's state unchanged. The depth
is at most 16 (R28, and the invariant). -/
def Obligations.PushStoresAtTheDepthOrOverflows : Prop :=
  (∀ (s : State) (a : Word), s.sp = 16 → s.push a = .overflow) ∧
  (∀ (s : State) (a : Word), s.sp.toNat < 16 → ∃ t, s.push a = .ok t ∧
    t.stack[s.sp.toNat]? = some a ∧ t.sp.toNat = s.sp.toNat + 1 ∧
    (∀ k : Nat, k ≠ s.sp.toNat → t.stack[k]? = s.stack[k]?) ∧
    t.pc = s.pc ∧ SameRegs s t ∧ SameStore s t ∧ SameStatus s t) ∧
  (∀ (s : State) (targets : List Addr12) (nnn : Addr12), s.sp = 0 → s.fault = 0 → targets.length = 16 →
    ∃ t, callNested targets s = .next t ∧ t.sp = 16 ∧ t.fault = 0 ∧
      ∃ u, exec (.call nnn) t = .next u ∧ u.fault ≠ 0 ∧ u.pc = t.pc ∧
        SameRegs t u ∧ SameStack t u ∧ SameStore t u)

/-- R30: Pop at depth 0 answers underflow and changes nothing; above, it takes one from `SP` and answers the entry that
was on top, which is not cleared. The depth is at most 16 (R28, and the invariant). -/
def Obligations.PopAnswersTheTopOrUnderflows : Prop :=
  (∀ s : State, s.sp = 0 → s.pop = .underflow) ∧
  (∀ s : State, 0 < s.sp.toNat → s.sp.toNat ≤ 16 → ∃ a t, s.pop = .ok a t ∧
    s.stack[s.sp.toNat - 1]? = some a ∧ t.sp.toNat = s.sp.toNat - 1 ∧ t.stack = s.stack ∧
    t.pc = s.pc ∧ SameRegs s t ∧ SameStore s t ∧ SameStatus s t)

/-- With `SP` at 17 to 31, values the spec says are never taken, CALL and RET stop by name: the model's choice (log
entry 8). -/
def Obligations.InvalidDepthStopsCallAndRet : Prop :=
  ∀ (s : State) (nnn : Addr12), 16 < s.sp.toNat →
    exec (.call nnn) s = .fault .stackPointerInvalid ∧ exec .ret s = .fault .stackPointerInvalid

/-- RET above depth 0: `PC` receives the top entry, `SP` goes down by one, nothing else changes and the entry stays in
storage. -/
def Obligations.RetPopsTheTopIntoPc : Prop :=
  ∀ s : State, 0 < s.sp.toNat → s.sp.toNat ≤ 16 → ∃ t, exec .ret s = .next t ∧
    s.stack[s.sp.toNat - 1]? = some t.pc ∧ t.sp.toNat = s.sp.toNat - 1 ∧ t.stack = s.stack ∧
    SameRegs s t ∧ SameStore s t ∧ SameStatus s t

/-- RET at depth 0 takes the fault StackUnderflow, code 2, and writes nothing else (decision D13, D14). -/
def Obligations.RetAtDepthZeroFaults : Prop :=
  ∀ s : State, s.sp = 0 → ∃ t, exec .ret s = .next t ∧
    t.fault = 2 ∧ t.outcome = .fault .stackUnderflow ∧ t.pc = s.pc ∧
    SameRegs s t ∧ SameStack s t ∧ SameStore s t

/-- JP writes `PC`, with the zero-extended `nnn`, and nothing else. -/
def Obligations.JpSetsPcOnly : Prop :=
  ∀ (s : State) (nnn : Addr12), ∃ t, exec (.jp nnn) s = .next t ∧
    t.pc.toNat = nnn.toNat ∧ SameBesidesPc s t

/-- CALL below depth 16: the advanced `PC` is pushed, then `PC` receives `nnn`; nothing else changes. -/
def Obligations.CallPushesPcAndJumps : Prop :=
  ∀ (s : State) (nnn : Addr12), s.sp.toNat < 16 → ∃ t, exec (.call nnn) s = .next t ∧
    t.stack[s.sp.toNat]? = some s.pc ∧ (∀ k : Nat, k ≠ s.sp.toNat → t.stack[k]? = s.stack[k]?) ∧
    t.sp.toNat = s.sp.toNat + 1 ∧ t.pc.toNat = nnn.toNat ∧
    SameRegs s t ∧ SameStore s t ∧ SameStatus s t

/-- CALL at depth 16 takes the fault StackOverflow, code 1, and writes nothing else (decision D13, D14). -/
def Obligations.CallAtDepthSixteenFaults : Prop :=
  ∀ (s : State) (nnn : Addr12), s.sp = 16 → ∃ t, exec (.call nnn) s = .next t ∧
    t.fault = 1 ∧ t.outcome = .fault .stackOverflow ∧ t.pc = s.pc ∧
    SameRegs s t ∧ SameStack s t ∧ SameStore s t

/-! ## Display and skips -/

/-- R100: CLS is the word 0x00E0; it emits `ScreenClear` and changes no register, no stack entry, no timer, no byte of
memory, and not `PC`. -/
def Obligations.ClsEmitsScreenClearOnly : Prop :=
  (∀ aluExt, decode aluExt 0x00E0 = .instr .cls) ∧
  ∀ s : State, ∃ t, exec .cls s = .next t ∧
    (∀ events, s.outcome = .ok events → t.outcome = .ok (events ++ [.screenClear])) ∧
    t.pc = s.pc ∧ t.fault = s.fault ∧ SameRegs s t ∧ SameStack s t ∧ SameStore s t

/-- The three skips move the advanced `PC` by two exactly when their condition holds, and write nothing else: SE Vx, kk
on equality with the immediate, SNE Vx, kk on difference, SE Vx, Vy on equality of the registers. -/
def Obligations.SkipsMovePcExactlyOnTheirCondition : Prop :=
  ∀ (s : State) (x y : Reg) (kk : Byte),
    (∃ t, exec (.seImm x kk) s = .next t ∧ SameBesidesPc s t ∧
      t.pc = if s.reg x = kk then s.pc + 2 else s.pc) ∧
    (∃ t, exec (.sneImm x kk) s = .next t ∧ SameBesidesPc s t ∧
      t.pc = if s.reg x = kk then s.pc else s.pc + 2) ∧
    (∃ t, exec (.seReg x y) s = .next t ∧ SameBesidesPc s t ∧
      t.pc = if s.reg x = s.reg y then s.pc + 2 else s.pc)

/-- Of SE Vx, kk and SNE Vx, kk on the same operands exactly one skips, and SE Vx, Vx always skips. -/
def Obligations.ExactlyOneOfSeAndSneSkips : Prop :=
  ∀ (s : State) (x : Reg) (kk : Byte), ∃ t u v,
    exec (.seImm x kk) s = .next t ∧ exec (.sneImm x kk) s = .next u ∧ exec (.seReg x x) s = .next v ∧
    ((t.pc = s.pc + 2 ∧ u.pc = s.pc) ∨ (t.pc = s.pc ∧ u.pc = s.pc + 2)) ∧ v.pc = s.pc + 2

/-! ## Register instructions -/

/-- R125: LD Vx, kk is the word 6xkk; it stores the immediate in `V[x]`, `x = 15` included, and changes nothing else. -/
def Obligations.LdImmStoresTheImmediate : Prop :=
  ∀ (s : State) (x : Reg) (kk : Byte),
    (∀ aluExt, decode aluExt (BitVec.ofNat 16 (0x6000 + x.val * 256 + kk.toNat)) = .instr (.ldImm x kk)) ∧
    ∃ t, exec (.ldImm x kk) s = .next t ∧ t.reg x = kk ∧ SameRegsBut x s t ∧ SameBesidesRegs s t

/-- R126: ADD Vx, kk is the word 7xkk; it adds the immediate modulo 256 and writes no flag: `V[15]` changes only when
`x = 15`. LD Vx, kk followed by ADD Vx, kk gives twice the immediate modulo 256. -/
def Obligations.AddImmWrapsAndWritesNoFlag : Prop :=
  (∀ (s : State) (x : Reg) (kk : Byte),
    (∀ aluExt, decode aluExt (BitVec.ofNat 16 (0x7000 + x.val * 256 + kk.toNat)) = .instr (.addImm x kk)) ∧
    ∃ t, exec (.addImm x kk) s = .next t ∧ (t.reg x).toNat = ((s.reg x).toNat + kk.toNat) % 256 ∧
      SameRegsBut x s t ∧ SameBesidesRegs s t) ∧
  (∀ (s : State) (x : Reg) (kk : Byte), ∃ t u,
    exec (.ldImm x kk) s = .next t ∧ exec (.addImm x kk) t = .next u ∧ (u.reg x).toNat = (2 * kk.toNat) % 256)

/-- R130: LD Vx, Vy is the word 8xy0; it copies `V[y]` into `V[x]` and changes nothing else. -/
def Obligations.LdRegCopiesTheRegister : Prop :=
  ∀ (s : State) (x y : Reg),
    (∀ aluExt, decode aluExt (BitVec.ofNat 16 (0x8000 + x.val * 256 + y.val * 16)) = .instr (.ldReg x y)) ∧
    ∃ t, exec (.ldReg x y) s = .next t ∧ t.reg x = s.reg y ∧ SameRegsBut x s t ∧ SameBesidesRegs s t

/-- R131, R132, R133: OR, AND and XOR are the words 8xy1, 8xy2 and 8xy3; they act on the eight bits independently, put
the result in `V[x]` and write no flag. With `x = y`, OR and AND leave the register and XOR clears it. -/
def Obligations.BitwiseGroupActsBitByBitWithoutFlag : Prop :=
  ∀ (s : State) (x y : Reg),
    (∀ aluExt, decode aluExt (BitVec.ofNat 16 (0x8001 + x.val * 256 + y.val * 16)) = .instr (.orReg x y) ∧
      decode aluExt (BitVec.ofNat 16 (0x8002 + x.val * 256 + y.val * 16)) = .instr (.andReg x y) ∧
      decode aluExt (BitVec.ofNat 16 (0x8003 + x.val * 256 + y.val * 16)) = .instr (.xorReg x y)) ∧
    (∃ t, exec (.orReg x y) s = .next t ∧ SameRegsBut x s t ∧ SameBesidesRegs s t ∧ (x = y → t.reg x = s.reg x) ∧
      ∀ k < 8, (t.reg x).getLsbD k = ((s.reg x).getLsbD k || (s.reg y).getLsbD k)) ∧
    (∃ t, exec (.andReg x y) s = .next t ∧ SameRegsBut x s t ∧ SameBesidesRegs s t ∧ (x = y → t.reg x = s.reg x) ∧
      ∀ k < 8, (t.reg x).getLsbD k = ((s.reg x).getLsbD k && (s.reg y).getLsbD k)) ∧
    (∃ t, exec (.xorReg x y) s = .next t ∧ SameRegsBut x s t ∧ SameBesidesRegs s t ∧ (x = y → t.reg x = 0) ∧
      ∀ k < 8, (t.reg x).getLsbD k = ((s.reg x).getLsbD k != (s.reg y).getLsbD k))

/-- ADD Vx, Vy: the sum modulo 256 in `V[x]`, and the carry of the true sum in `V[15]` unless `x = 15`, where the sum
remains; both operands are read before the flag is written (45_alu.md, decision D10, log entry 13). -/
def Obligations.AddRegWritesCarryThenSum : Prop :=
  ∀ (s : State) (x y : Reg), ∃ t, exec (.addReg x y) s = .next t ∧
    (t.reg x).toNat = ((s.reg x).toNat + (s.reg y).toNat) % 256 ∧
    (x ≠ 15 → (t.reg 15).toNat = if (s.reg x).toNat + (s.reg y).toNat > 255 then 1 else 0) ∧
    (∀ r, r ≠ x → r ≠ 15 → t.reg r = s.reg r) ∧ SameBesidesRegs s t

/-- SUB Vx, Vy on a core with `ALU_EXT`: the difference modulo 256 in `V[x]`, and in `V[15]`, unless `x = 15`, 1 exactly
when there is no borrow (decision D8, log entry 11). -/
def Obligations.SubWritesNoBorrowThenDifference : Prop :=
  ∀ (s : State) (x y : Reg), s.cfg.aluExt = true → ∃ t, exec (.sub x y) s = .next t ∧
    (t.reg x).toNat = ((s.reg x).toNat + 256 - (s.reg y).toNat) % 256 ∧
    (x ≠ 15 → (t.reg 15).toNat = if (s.reg x).toNat < (s.reg y).toNat then 0 else 1) ∧
    (∀ r, r ≠ x → r ≠ 15 → t.reg r = s.reg r) ∧ SameBesidesRegs s t

/-- SUBN Vx, Vy on a core with `ALU_EXT`: as SUB with the operands exchanged (decision D8, log entry 11). -/
def Obligations.SubnWritesNoBorrowThenReverseDifference : Prop :=
  ∀ (s : State) (x y : Reg), s.cfg.aluExt = true → ∃ t, exec (.subn x y) s = .next t ∧
    (t.reg x).toNat = ((s.reg y).toNat + 256 - (s.reg x).toNat) % 256 ∧
    (x ≠ 15 → (t.reg 15).toNat = if (s.reg y).toNat < (s.reg x).toNat then 0 else 1) ∧
    (∀ r, r ≠ x → r ≠ 15 → t.reg r = s.reg r) ∧ SameBesidesRegs s t

/-- SHR Vx on a core with `ALU_EXT`: half of `V[x]`, the lost bit in `V[15]` unless `x = 15`; `y` does not matter
(decision D9, log entry 12). -/
def Obligations.ShrHalvesAndKeepsTheLostBit : Prop :=
  ∀ (s : State) (x y : Reg), s.cfg.aluExt = true → ∃ t, exec (.shr x y) s = .next t ∧
    (t.reg x).toNat = (s.reg x).toNat / 2 ∧
    (x ≠ 15 → (t.reg 15).toNat = (s.reg x).toNat % 2) ∧
    (∀ r, r ≠ x → r ≠ 15 → t.reg r = s.reg r) ∧ SameBesidesRegs s t

/-- SHL Vx on a core with `ALU_EXT`: twice `V[x]` modulo 256, the lost bit in `V[15]` unless `x = 15`; `y` does not
matter (decision D9, log entry 12). -/
def Obligations.ShlDoublesAndKeepsTheLostBit : Prop :=
  ∀ (s : State) (x y : Reg), s.cfg.aluExt = true → ∃ t, exec (.shl x y) s = .next t ∧
    (t.reg x).toNat = (2 * (s.reg x).toNat) % 256 ∧
    (x ≠ 15 → (t.reg 15).toNat = (s.reg x).toNat / 128) ∧
    (∀ r, r ≠ x → r ≠ 15 → t.reg r = s.reg r) ∧ SameBesidesRegs s t

/-- SHL Vx does what ADD Vx, Vx does, in every state (46_alu_ext.md, corner cases of SHL; decision D9, log entry 12). On a
core without `ALU_EXT` the spec has no SHL and no step executes one: that `exec` has a meaning for it there too is the
model's choice (log entry 23). -/
def Obligations.ShlEqualsAddOfTheRegisterToItself : Prop :=
  ∀ (s : State) (x y : Reg), exec (.shl x y) s = exec (.addReg x x) s

/-! ## Memory -/

/-- Two memories in canonical form whose 4096 bytes are equal are the same data (log entry 18). -/
def Obligations.CanonicalMemoriesAreDeterminedByTheirBytes : Prop :=
  ∀ (g : GlyphTable) (m m' : Memory), Memory.wf g m → Memory.wf g m' →
    (∀ a < 4096, Memory.read g m a = Memory.read g m' a) → m = m'
end

