-- ==== Sys2Proof/Laws/Decode.lean ====
section
/-! SUPPORT. The words, bytes and fields as numbers, so that facts about encodings are arithmetic; and the masks of the
opcode table on the words of each format. -/

namespace Sys2Proof

/-! ## Words of parts -/

theorem append_toNat {m n : Nat} (a : BitVec m) (b : BitVec n) : (a ++ b).toNat = a.toNat * 2 ^ n + b.toNat := by
  rw [BitVec.toNat_append, Nat.shiftLeft_eq, Nat.mul_comm, ← Nat.two_pow_add_eq_or_of_lt b.isLt]

theorem regBits_toNat (r : Reg) : (regBits r).toNat = r.val := rfl

theorem wordOfBytes_toNat (a b : Byte) : (wordOfBytes a b).toNat = a.toNat * 256 + b.toNat := append_toNat a b

theorem wordA_toNat (op : BitVec 4) (nnn : Addr12) : (wordA op nnn).toNat = op.toNat * 4096 + nnn.toNat :=
  append_toNat op nnn

theorem wordXK_toNat (op : BitVec 4) (x : Reg) (kk : Byte) :
    (wordXK op x kk).toNat = op.toNat * 4096 + x.val * 256 + kk.toNat := by
  refine (append_toNat (op ++ regBits x) kk).trans ?_
  rw [append_toNat, regBits_toNat]; omega

theorem wordXY_toNat (op : BitVec 4) (x y : Reg) (n : BitVec 4) :
    (wordXY op x y n).toNat = op.toNat * 4096 + x.val * 256 + y.val * 16 + n.toNat := by
  refine (append_toNat (op ++ regBits x ++ regBits y) n).trans ?_
  rw [append_toNat, append_toNat, regBits_toNat, regBits_toNat]; omega

/-! ## Fields of a word -/

theorem field_toNat (w : Word) (lo width : Nat) : (w.extractLsb' lo width).toNat = w.toNat / 2 ^ lo % 2 ^ width := by
  rw [BitVec.extractLsb'_toNat, Nat.shiftRight_eq_div_pow]

theorem opField_toNat (w : Word) : (opField w).toNat = w.toNat / 4096 := by
  have := w.isLt
  rw [opField, field_toNat]; omega

theorem xField_val (w : Word) : (xField w).val = w.toNat / 256 % 16 := field_toNat w 8 4

theorem yField_val (w : Word) : (yField w).val = w.toNat / 16 % 16 := field_toNat w 4 4

theorem nField_toNat (w : Word) : (nField w).toNat = w.toNat % 16 := by rw [nField, field_toNat]; omega

theorem kkField_toNat (w : Word) : (kkField w).toNat = w.toNat % 256 := by rw [kkField, field_toNat]; omega

theorem nnnField_toNat (w : Word) : (nnnField w).toNat = w.toNat % 4096 := by rw [nnnField, field_toNat]; omega

theorem firstByte_toNat (w : Word) : (firstByte w).toNat = w.toNat / 256 := by
  have := w.isLt
  rw [firstByte, field_toNat]; omega

theorem secondByte_toNat (w : Word) : (secondByte w).toNat = w.toNat % 256 := by rw [secondByte, field_toNat]; omega

/-- A word is the two bytes it is stored as (20_memory.md R54). -/
theorem wordOfBytes_bytes (w : Word) : wordOfBytes (firstByte w) (secondByte w) = w := by
  apply BitVec.eq_of_toNat_eq
  rw [wordOfBytes_toNat, firstByte_toNat, secondByte_toNat]; omega

/-! ## The masks of the opcode table -/

theorem maskA_toNat (w : Word) : (w &&& 0xF000#16).toNat = w.toNat / 4096 * 4096 := by
  have h : w &&& 0xF000#16 = w >>> 12 <<< 12 := by
    ext k hk
    interval_cases k <;> simp
  have := w.isLt
  rw [h]
  simp [Nat.shiftRight_eq_div_pow, Nat.shiftLeft_eq]; omega

theorem maskXY_toNat (w : Word) : (w &&& 0xF00F#16).toNat = w.toNat / 4096 * 4096 + w.toNat % 16 := by
  have h : w &&& 0xF00F#16 = (w >>> 12 <<< 12) ||| (w &&& 0x000F#16) := by
    ext k hk
    interval_cases k <;> simp
  have := w.isLt
  rw [h, BitVec.toNat_or, BitVec.toNat_and, show (0x000F#16).toNat = 2 ^ 4 - 1 from rfl, Nat.and_two_pow_sub_one_eq_mod]
  have h12 : (w >>> 12 <<< 12).toNat = w.toNat / 4096 * 4096 := by
    simp [Nat.shiftRight_eq_div_pow, Nat.shiftLeft_eq]; omega
  rw [h12, show w.toNat / 4096 * 4096 = 2 ^ 4 * (w.toNat / 4096 * 256) by omega,
    ← Nat.two_pow_add_eq_or_of_lt (Nat.mod_lt _ (by norm_num))]

/-- The mask of format A on a word of that format keeps the operation alone (R73). -/
theorem wordA_mask (op : BitVec 4) (nnn : Addr12) : wordA op nnn &&& 0xF000#16 = wordA op 0 := by
  have := nnn.isLt
  apply BitVec.eq_of_toNat_eq
  rw [maskA_toNat, wordA_toNat, wordA_toNat]; simp; omega

/-- The mask of format XK keeps the operation alone (R73). -/
theorem wordXK_mask (op : BitVec 4) (x : Reg) (kk : Byte) : wordXK op x kk &&& 0xF000#16 = wordXK op 0 0 := by
  have := x.isLt
  have := kk.isLt
  apply BitVec.eq_of_toNat_eq
  rw [maskA_toNat, wordXK_toNat, wordXK_toNat]; simp; omega

/-- The mask of format XY keeps the operation and the low nibble (R73). -/
theorem wordXY_mask (op : BitVec 4) (x y : Reg) (n : BitVec 4) :
    wordXY op x y n &&& 0xF00F#16 = wordXY op 0 0 n := by
  have := x.isLt
  have := y.isLt
  have := n.isLt
  apply BitVec.eq_of_toNat_eq
  rw [maskXY_toNat, wordXY_toNat, wordXY_toNat]; simp; omega

end Sys2Proof
end

