-- ==== Sys2Proof/Laws/Memory.lean ====
section
/-! SUPPORT. The laws of memory: what a byte reads as after a write, and that every operation keeps the canonical
form. -/

namespace Sys2Proof.Machine.Memory

/-! ## Finding a listed byte -/

theorem find_insert (m : Memory) (a b' : Nat) (b : Byte) :
    find (insert m a b) b' = if b' = a then some b else find m b' := by
  induction m with
  | nil => simp [insert, find, eq_comm]
  | cons c rest ih =>
    obtain ⟨k, c⟩ := c
    by_cases h1 : a < k
    · by_cases h : a = b'
      · subst h; simp [insert, find, h1]
      · simp [insert, find, h1, h, Ne.symm h]
    · by_cases h2 : a = k
      · subst h2
        by_cases h : a = b'
        · subst h; simp [insert, find]
        · simp [insert, find, h, Ne.symm h]
      · by_cases h3 : k = b'
        · subst h3; simp [insert, find, h1, h2, Ne.symm h2]
        · simp [insert, find, h1, h2, h3, ih]

theorem find_erase (m : Memory) (a b' : Nat) : find (erase m a) b' = if b' = a then none else find m b' := by
  induction m with
  | nil => simp [erase, find]
  | cons c rest ih =>
    obtain ⟨k, c⟩ := c
    by_cases hk : k = a
    · subst hk
      by_cases hb : k = b'
      · subst hb; simp [erase, ih]
      · simp [erase, find, ih, hb, Ne.symm hb]
    · by_cases hb : k = b'
      · subst hb; simp [erase, find, hk]
      · simp [erase, find, hk, hb, ih]

/-! ## Membership -/

theorem mem_insert {m : Memory} {a : Nat} {b : Byte} {c : Host.Cell} (h : c ∈ insert m a b) : c = (a, b) ∨ c ∈ m := by
  induction m with
  | nil => simpa [insert] using h
  | cons d rest ih =>
    obtain ⟨k, d⟩ := d
    simp only [insert] at h
    split_ifs at h <;> simp at h ⊢ <;> tauto

theorem mem_erase {m : Memory} {a : Nat} {c : Host.Cell} (h : c ∈ erase m a) : c ∈ m := by
  induction m with
  | nil => simp [erase] at h
  | cons d rest ih =>
    obtain ⟨k, d⟩ := d
    simp only [erase] at h
    split_ifs at h <;> simp at h ⊢ <;> tauto

/-! ## The canonical form is kept -/

theorem rising_insert {m : Memory} (hm : m.Pairwise (fun c d => c.1 < d.1)) (a : Nat) (b : Byte) :
    (insert m a b).Pairwise (fun c d => c.1 < d.1) := by
  induction m with
  | nil => simp [insert]
  | cons d rest ih =>
    obtain ⟨k, d⟩ := d
    obtain ⟨hlt, hrest⟩ := List.pairwise_cons.mp hm
    simp only [insert]
    split_ifs with h1 h2
    · refine List.pairwise_cons.mpr ⟨fun e he => ?_, hm⟩
      rcases List.mem_cons.mp he with rfl | he
      · exact h1
      · exact h1.trans (hlt e he)
    · subst h2; exact List.pairwise_cons.mpr ⟨hlt, hrest⟩
    · refine List.pairwise_cons.mpr ⟨fun e he => ?_, ih hrest⟩
      rcases mem_insert he with rfl | he
      · exact show k < a by omega
      · exact hlt e he

theorem rising_erase {m : Memory} (hm : m.Pairwise (fun c d => c.1 < d.1)) (a : Nat) :
    (erase m a).Pairwise (fun c d => c.1 < d.1) := by
  induction m with
  | nil => simp [erase]
  | cons d rest ih =>
    obtain ⟨k, d⟩ := d
    obtain ⟨hlt, hrest⟩ := List.pairwise_cons.mp hm
    simp only [erase]
    split_ifs
    · exact ih hrest
    · exact List.pairwise_cons.mpr ⟨fun e he => hlt e (mem_erase he), ih hrest⟩

theorem wf_nil (g : GlyphTable) : wf g [] := by simp [wf]

theorem wf_write {g : GlyphTable} {m : Memory} (hm : wf g m) (a : Nat) (b : Byte) : wf g (write g m a b) := by
  unfold write
  split_ifs with h1 h2
  · exact hm
  · exact ⟨rising_erase hm.1 a, fun c hc => hm.2 c (mem_erase hc)⟩
  · refine ⟨rising_insert hm.1 a b, fun c hc => ?_⟩
    rcases mem_insert hc with rfl | hc
    · exact ⟨by simpa using h1, h2⟩
    · exact hm.2 c hc

theorem wf_writeBytes {g : GlyphTable} {m : Memory} (hm : wf g m) (a : Nat) (bs : List Byte) :
    wf g (writeBytes g m a bs) := by
  induction bs generalizing m a with
  | nil => exact hm
  | cons b bs ih => exact ih (wf_write hm a b) (a + 1)

theorem wf_storeWord {s : State} (hm : wf s.cfg.glyphTable s.mem) (a : Nat) (w : Word) :
    wf s.cfg.glyphTable (s.storeWord a w).mem := wf_writeBytes hm a _

theorem wf_load {s t : State} {image : List Byte} (hm : wf s.cfg.glyphTable s.mem) (h : s.load image = .ok t) :
    wf t.cfg.glyphTable t.mem := by
  unfold State.load at h
  split_ifs at h
  cases h
  exact wf_writeBytes hm _ _

/-! ## Reading after a write -/

theorem read_nil (g : GlyphTable) (a : Nat) : read g [] a = resetByte g a := rfl

theorem read_write (g : GlyphTable) (m : Memory) (a a' : Nat) (b : Byte) :
    read g (write g m a b) a' = if a' = a ∧ a < memSize then b else read g m a' := by
  unfold write
  by_cases h : a' = a
  · subst h
    split_ifs with h1 h2 h3 h3 <;> first | omega | simp_all [read, find_erase, find_insert]
  · split_ifs with h1 h2 h3 <;> simp_all [read, find_erase, find_insert]

theorem read_writeBytes (g : GlyphTable) (m : Memory) (a a' : Nat) (bs : List Byte) :
    read g (writeBytes g m a bs) a' =
      if h : a ≤ a' ∧ a' < a + bs.length ∧ a' < memSize then bs[a' - a] else read g m a' := by
  induction bs generalizing m a with
  | nil => simp [writeBytes]; omega
  | cons b bs ih =>
    simp only [writeBytes, ih, read_write, List.length_cons]
    by_cases h1 : a' = a
    · subst h1
      by_cases h2 : a' < memSize <;> simp [h2]
    · by_cases h2 : a + 1 ≤ a' ∧ a' < a + 1 + bs.length ∧ a' < memSize
      · have h3 : a ≤ a' ∧ a' < a + (bs.length + 1) ∧ a' < memSize := by omega
        have h4 : a' - a = a' - (a + 1) + 1 := by omega
        simp [h2, h3, h4]
      · have h3 : ¬ (a ≤ a' ∧ a' < a + (bs.length + 1) ∧ a' < memSize) := by omega
        rw [dif_neg h2, dif_neg h3, if_neg (fun h => h1 h.1)]

/-- Every byte that exists reads as the reset contents or as its listed value. -/
theorem memRead_eq (s : State) (a : Nat) :
    s.memRead a = if a < memSize then some (read s.cfg.glyphTable s.mem a) else none := rfl

end Sys2Proof.Machine.Memory
end

