-- ==== Sys2Proof/Laws/State.lean ====
section
/-! SUPPORT. One lemma per field per update of the state, so that no proof unfolds a record update; and the reads of
registers and memory after each update. -/

namespace Sys2Proof.Machine.State

variable (s : State)

/-! ## `setReg` -/

@[simp] theorem setReg_cfg (r : Reg) (b : Byte) : (s.setReg r b).cfg = s.cfg := rfl
@[simp] theorem setReg_v (r : Reg) (b : Byte) : (s.setReg r b).v = s.v.set r.val b := rfl
@[simp] theorem setReg_pc (r : Reg) (b : Byte) : (s.setReg r b).pc = s.pc := rfl
@[simp] theorem setReg_i (r : Reg) (b : Byte) : (s.setReg r b).i = s.i := rfl
@[simp] theorem setReg_stack (r : Reg) (b : Byte) : (s.setReg r b).stack = s.stack := rfl
@[simp] theorem setReg_sp (r : Reg) (b : Byte) : (s.setReg r b).sp = s.sp := rfl
@[simp] theorem setReg_dt (r : Reg) (b : Byte) : (s.setReg r b).dt = s.dt := rfl
@[simp] theorem setReg_st (r : Reg) (b : Byte) : (s.setReg r b).st = s.st := rfl
@[simp] theorem setReg_mem (r : Reg) (b : Byte) : (s.setReg r b).mem = s.mem := rfl
@[simp] theorem setReg_fault (r : Reg) (b : Byte) : (s.setReg r b).fault = s.fault := rfl
@[simp] theorem setReg_unrecCnt (r : Reg) (b : Byte) : (s.setReg r b).unrecCnt = s.unrecCnt := rfl
@[simp] theorem setReg_outcome (r : Reg) (b : Byte) : (s.setReg r b).outcome = s.outcome := rfl
@[simp] theorem setReg_memRead (r : Reg) (b : Byte) (a' : Nat) : (s.setReg r b).memRead a' = s.memRead a' := rfl

/-! ## `setPc` -/

@[simp] theorem setPc_cfg (t : Word) : (s.setPc t).cfg = s.cfg := rfl
@[simp] theorem setPc_v (t : Word) : (s.setPc t).v = s.v := rfl
@[simp] theorem setPc_pc (t : Word) : (s.setPc t).pc = t := rfl
@[simp] theorem setPc_i (t : Word) : (s.setPc t).i = s.i := rfl
@[simp] theorem setPc_stack (t : Word) : (s.setPc t).stack = s.stack := rfl
@[simp] theorem setPc_sp (t : Word) : (s.setPc t).sp = s.sp := rfl
@[simp] theorem setPc_dt (t : Word) : (s.setPc t).dt = s.dt := rfl
@[simp] theorem setPc_st (t : Word) : (s.setPc t).st = s.st := rfl
@[simp] theorem setPc_mem (t : Word) : (s.setPc t).mem = s.mem := rfl
@[simp] theorem setPc_fault (t : Word) : (s.setPc t).fault = s.fault := rfl
@[simp] theorem setPc_unrecCnt (t : Word) : (s.setPc t).unrecCnt = s.unrecCnt := rfl
@[simp] theorem setPc_outcome (t : Word) : (s.setPc t).outcome = s.outcome := rfl
@[simp] theorem setPc_reg (t : Word) (r' : Reg) : (s.setPc t).reg r' = s.reg r' := rfl
@[simp] theorem setPc_memRead (t : Word) (a' : Nat) : (s.setPc t).memRead a' = s.memRead a' := rfl

/-! ## `emit` -/

@[simp] theorem emit_cfg (e : Event) : (s.emit e).cfg = s.cfg := rfl
@[simp] theorem emit_v (e : Event) : (s.emit e).v = s.v := rfl
@[simp] theorem emit_pc (e : Event) : (s.emit e).pc = s.pc := rfl
@[simp] theorem emit_i (e : Event) : (s.emit e).i = s.i := rfl
@[simp] theorem emit_stack (e : Event) : (s.emit e).stack = s.stack := rfl
@[simp] theorem emit_sp (e : Event) : (s.emit e).sp = s.sp := rfl
@[simp] theorem emit_dt (e : Event) : (s.emit e).dt = s.dt := rfl
@[simp] theorem emit_st (e : Event) : (s.emit e).st = s.st := rfl
@[simp] theorem emit_mem (e : Event) : (s.emit e).mem = s.mem := rfl
@[simp] theorem emit_fault (e : Event) : (s.emit e).fault = s.fault := rfl
@[simp] theorem emit_unrecCnt (e : Event) : (s.emit e).unrecCnt = s.unrecCnt := rfl
@[simp] theorem emit_outcome (e : Event) : (s.emit e).outcome = s.outcome.push e := rfl
@[simp] theorem emit_reg (e : Event) (r' : Reg) : (s.emit e).reg r' = s.reg r' := rfl
@[simp] theorem emit_memRead (e : Event) (a' : Nat) : (s.emit e).memRead a' = s.memRead a' := rfl

/-! ## `raise` -/

@[simp] theorem raise_cfg (c : Cause) : (s.raise c).cfg = s.cfg := rfl
@[simp] theorem raise_v (c : Cause) : (s.raise c).v = s.v := rfl
@[simp] theorem raise_pc (c : Cause) : (s.raise c).pc = s.pc := rfl
@[simp] theorem raise_i (c : Cause) : (s.raise c).i = s.i := rfl
@[simp] theorem raise_stack (c : Cause) : (s.raise c).stack = s.stack := rfl
@[simp] theorem raise_sp (c : Cause) : (s.raise c).sp = s.sp := rfl
@[simp] theorem raise_dt (c : Cause) : (s.raise c).dt = s.dt := rfl
@[simp] theorem raise_st (c : Cause) : (s.raise c).st = s.st := rfl
@[simp] theorem raise_mem (c : Cause) : (s.raise c).mem = s.mem := rfl
@[simp] theorem raise_fault (c : Cause) : (s.raise c).fault = c.code := rfl
@[simp] theorem raise_unrecCnt (c : Cause) : (s.raise c).unrecCnt = s.unrecCnt := rfl
@[simp] theorem raise_outcome (c : Cause) : (s.raise c).outcome = .fault c := rfl
@[simp] theorem raise_reg (c : Cause) (r' : Reg) : (s.raise c).reg r' = s.reg r' := rfl
@[simp] theorem raise_memRead (c : Cause) (a' : Nat) : (s.raise c).memRead a' = s.memRead a' := rfl

/-! ## `halt` -/

@[simp] theorem halt_cfg : s.halt.cfg = s.cfg := rfl
@[simp] theorem halt_v : s.halt.v = s.v := rfl
@[simp] theorem halt_pc : s.halt.pc = s.pc := rfl
@[simp] theorem halt_i : s.halt.i = s.i := rfl
@[simp] theorem halt_stack : s.halt.stack = s.stack := rfl
@[simp] theorem halt_sp : s.halt.sp = s.sp := rfl
@[simp] theorem halt_dt : s.halt.dt = s.dt := rfl
@[simp] theorem halt_st : s.halt.st = s.st := rfl
@[simp] theorem halt_mem : s.halt.mem = s.mem := rfl
@[simp] theorem halt_fault : s.halt.fault = s.fault := rfl
@[simp] theorem halt_unrecCnt : s.halt.unrecCnt = s.unrecCnt := rfl
@[simp] theorem halt_outcome : s.halt.outcome = .halted := rfl
@[simp] theorem halt_reg (r' : Reg) : s.halt.reg r' = s.reg r' := rfl
@[simp] theorem halt_memRead (a' : Nat) : s.halt.memRead a' = s.memRead a' := rfl

/-! ## `fetched` -/

@[simp] theorem fetched_cfg : s.fetched.cfg = s.cfg := rfl
@[simp] theorem fetched_v : s.fetched.v = s.v := rfl
@[simp] theorem fetched_pc : s.fetched.pc = s.pc + 2 := rfl
@[simp] theorem fetched_i : s.fetched.i = s.i := rfl
@[simp] theorem fetched_stack : s.fetched.stack = s.stack := rfl
@[simp] theorem fetched_sp : s.fetched.sp = s.sp := rfl
@[simp] theorem fetched_dt : s.fetched.dt = s.dt := rfl
@[simp] theorem fetched_st : s.fetched.st = s.st := rfl
@[simp] theorem fetched_mem : s.fetched.mem = s.mem := rfl
@[simp] theorem fetched_fault : s.fetched.fault = s.fault := rfl
@[simp] theorem fetched_unrecCnt : s.fetched.unrecCnt = s.unrecCnt := rfl
@[simp] theorem fetched_outcome : s.fetched.outcome = .ok [] := rfl
@[simp] theorem fetched_reg (r' : Reg) : s.fetched.reg r' = s.reg r' := rfl
@[simp] theorem fetched_memRead (a' : Nat) : s.fetched.memRead a' = s.memRead a' := rfl

/-! ## `countUnrecognised` -/

@[simp] theorem countUnrecognised_cfg : s.countUnrecognised.cfg = s.cfg := rfl
@[simp] theorem countUnrecognised_v : s.countUnrecognised.v = s.v := rfl
@[simp] theorem countUnrecognised_pc : s.countUnrecognised.pc = s.pc := rfl
@[simp] theorem countUnrecognised_i : s.countUnrecognised.i = s.i := rfl
@[simp] theorem countUnrecognised_stack : s.countUnrecognised.stack = s.stack := rfl
@[simp] theorem countUnrecognised_sp : s.countUnrecognised.sp = s.sp := rfl
@[simp] theorem countUnrecognised_dt : s.countUnrecognised.dt = s.dt := rfl
@[simp] theorem countUnrecognised_st : s.countUnrecognised.st = s.st := rfl
@[simp] theorem countUnrecognised_mem : s.countUnrecognised.mem = s.mem := rfl
@[simp] theorem countUnrecognised_fault : s.countUnrecognised.fault = s.fault := rfl
@[simp] theorem countUnrecognised_unrecCnt : s.countUnrecognised.unrecCnt = countUp s.unrecCnt := rfl
@[simp] theorem countUnrecognised_outcome : s.countUnrecognised.outcome = s.outcome := rfl
@[simp] theorem countUnrecognised_reg (r' : Reg) : s.countUnrecognised.reg r' = s.reg r' := rfl
@[simp] theorem countUnrecognised_memRead (a' : Nat) : s.countUnrecognised.memRead a' = s.memRead a' := rfl

/-! ## Reading a register after a write (R21: no register is an alias of another) -/

@[simp] theorem setReg_reg_self (r : Reg) (b : Byte) : (s.setReg r b).reg r = b := by
  simp [State.reg, State.setReg]

theorem setReg_reg_ne (b : Byte) {r r' : Reg} (h : r' ≠ r) : (s.setReg r b).reg r' = s.reg r' := by
  have : r.val ≠ r'.val := fun e => h (Fin.ext e.symm)
  simp [State.reg, State.setReg, Vector.getElem_set_ne, this]

theorem setReg_reg (r r' : Reg) (b : Byte) : (s.setReg r b).reg r' = if r' = r then b else s.reg r' := by
  split
  · simp_all
  · rw [setReg_reg_ne s b ‹_›]

/-! ## `skipIf`: only `PC` can change -/

theorem skipIf_eq (c : Bool) : s.skipIf c = s.setPc (if c then s.pc + 2 else s.pc) := by
  cases c <;> rfl

@[simp] theorem skipIf_cfg (c : Bool) : (s.skipIf c).cfg = s.cfg := by cases c <;> rfl
@[simp] theorem skipIf_v (c : Bool) : (s.skipIf c).v = s.v := by cases c <;> rfl
@[simp] theorem skipIf_pc (c : Bool) : (s.skipIf c).pc = if c then s.pc + 2 else s.pc := by cases c <;> rfl
@[simp] theorem skipIf_i (c : Bool) : (s.skipIf c).i = s.i := by cases c <;> rfl
@[simp] theorem skipIf_stack (c : Bool) : (s.skipIf c).stack = s.stack := by cases c <;> rfl
@[simp] theorem skipIf_sp (c : Bool) : (s.skipIf c).sp = s.sp := by cases c <;> rfl
@[simp] theorem skipIf_dt (c : Bool) : (s.skipIf c).dt = s.dt := by cases c <;> rfl
@[simp] theorem skipIf_st (c : Bool) : (s.skipIf c).st = s.st := by cases c <;> rfl
@[simp] theorem skipIf_mem (c : Bool) : (s.skipIf c).mem = s.mem := by cases c <;> rfl
@[simp] theorem skipIf_fault (c : Bool) : (s.skipIf c).fault = s.fault := by cases c <;> rfl
@[simp] theorem skipIf_unrecCnt (c : Bool) : (s.skipIf c).unrecCnt = s.unrecCnt := by cases c <;> rfl
@[simp] theorem skipIf_outcome (c : Bool) : (s.skipIf c).outcome = s.outcome := by cases c <;> rfl
@[simp] theorem skipIf_reg (c : Bool) (r : Reg) : (s.skipIf c).reg r = s.reg r := by cases c <;> rfl
@[simp] theorem skipIf_memRead (c : Bool) (a : Nat) : (s.skipIf c).memRead a = s.memRead a := by cases c <;> rfl

/-! ## `writeFlagThenResult`: only the `V` registers can change, the flag first and the result second -/

@[simp] theorem writeFlagThenResult_cfg (x : Reg) (c : Bool) (b : Byte) :
    (s.writeFlagThenResult x c b).cfg = s.cfg := rfl
@[simp] theorem writeFlagThenResult_pc (x : Reg) (c : Bool) (b : Byte) :
    (s.writeFlagThenResult x c b).pc = s.pc := rfl
@[simp] theorem writeFlagThenResult_i (x : Reg) (c : Bool) (b : Byte) :
    (s.writeFlagThenResult x c b).i = s.i := rfl
@[simp] theorem writeFlagThenResult_stack (x : Reg) (c : Bool) (b : Byte) :
    (s.writeFlagThenResult x c b).stack = s.stack := rfl
@[simp] theorem writeFlagThenResult_sp (x : Reg) (c : Bool) (b : Byte) :
    (s.writeFlagThenResult x c b).sp = s.sp := rfl
@[simp] theorem writeFlagThenResult_dt (x : Reg) (c : Bool) (b : Byte) :
    (s.writeFlagThenResult x c b).dt = s.dt := rfl
@[simp] theorem writeFlagThenResult_st (x : Reg) (c : Bool) (b : Byte) :
    (s.writeFlagThenResult x c b).st = s.st := rfl
@[simp] theorem writeFlagThenResult_mem (x : Reg) (c : Bool) (b : Byte) :
    (s.writeFlagThenResult x c b).mem = s.mem := rfl
@[simp] theorem writeFlagThenResult_fault (x : Reg) (c : Bool) (b : Byte) :
    (s.writeFlagThenResult x c b).fault = s.fault := rfl
@[simp] theorem writeFlagThenResult_unrecCnt (x : Reg) (c : Bool) (b : Byte) :
    (s.writeFlagThenResult x c b).unrecCnt = s.unrecCnt := rfl
@[simp] theorem writeFlagThenResult_outcome (x : Reg) (c : Bool) (b : Byte) :
    (s.writeFlagThenResult x c b).outcome = s.outcome := rfl
@[simp] theorem writeFlagThenResult_memRead (x : Reg) (c : Bool) (b : Byte) (a : Nat) :
    (s.writeFlagThenResult x c b).memRead a = s.memRead a := rfl

@[simp] theorem writeFlagThenResult_reg_self (x : Reg) (c : Bool) (b : Byte) :
    (s.writeFlagThenResult x c b).reg x = b := by simp [writeFlagThenResult]

theorem writeFlagThenResult_reg_flag {x : Reg} (c : Bool) (b : Byte) (h : x ≠ flagReg) :
    (s.writeFlagThenResult x c b).reg flagReg = flagByte c := by
  rw [writeFlagThenResult, setReg_reg_ne _ _ (Ne.symm h), setReg_reg_self]

theorem writeFlagThenResult_reg_other {x r : Reg} (c : Bool) (b : Byte) (hx : r ≠ x) (hf : r ≠ flagReg) :
    (s.writeFlagThenResult x c b).reg r = s.reg r := by
  rw [writeFlagThenResult, setReg_reg_ne _ _ hx, setReg_reg_ne _ _ hf]

end Sys2Proof.Machine.State
end

