-- ==== Sys2Proof/Laws/Ops.lean ====
section
/-! SUPPORT. One lemma per shared operation that says everything it can do. -/

namespace Sys2Proof.Machine.State

/-- Everything `push` can do: overflow at 16; below, the entry at `SP` is written and `SP` goes up; invalid above. -/
theorem push_cases (s : State) (a : Word) :
    (s.sp.toNat = 16 ∧ s.push a = .overflow) ∨
    (∃ h : s.sp.toNat < 16, s.push a = .ok { s with stack := s.stack.set s.sp.toNat a, sp := s.sp + 1 } ∧
      (s.sp + 1).toNat = s.sp.toNat + 1) ∨
    (16 < s.sp.toNat ∧ s.push a = .invalid) := by
  have h16 : s.sp = 16 ↔ s.sp.toNat = 16 := by rw [← BitVec.toNat_inj]; rfl
  rcases Nat.lt_trichotomy s.sp.toNat 16 with h | h | h
  · refine .inr (.inl ⟨h, ?_, ?_⟩)
    · rw [push, if_neg (fun e => h.ne (h16.mp e)), dif_pos h]
    · rw [BitVec.toNat_add]; simp; omega
  · exact .inl ⟨h, by rw [push, if_pos (h16.mpr h)]⟩
  · exact .inr (.inr ⟨h, by rw [push, if_neg (fun e => h.ne' (h16.mp e)), dif_neg (Nat.not_lt.mpr h.le)]⟩)

/-- Everything `pop` can do: underflow at 0; up to 16, `SP` goes down and the entry there is the answer; invalid
above. -/
theorem pop_cases (s : State) :
    (s.sp.toNat = 0 ∧ s.pop = .underflow) ∨
    (∃ h : s.sp.toNat - 1 < 16, 0 < s.sp.toNat ∧ s.pop = .ok s.stack[s.sp.toNat - 1] { s with sp := s.sp - 1 } ∧
      (s.sp - 1).toNat = s.sp.toNat - 1) ∨
    (16 < s.sp.toNat ∧ s.pop = .invalid) := by
  have h0 : s.sp = 0 ↔ s.sp.toNat = 0 := by rw [← BitVec.toNat_inj]; rfl
  rcases Nat.eq_zero_or_pos s.sp.toNat with h | h
  · exact .inl ⟨h, by rw [pop, if_pos (h0.mpr h)]⟩
  · have hsub : (s.sp - 1).toNat = s.sp.toNat - 1 := by
      have := s.sp.isLt
      rw [BitVec.toNat_sub]; simp; omega
    have hne : ¬ s.sp = 0 := by rw [h0]; omega
    by_cases hlt : s.sp.toNat - 1 < 16
    · refine .inr (.inl ⟨hlt, h, ?_, hsub⟩)
      rw [pop, if_neg hne, dif_pos (show (s.sp - 1).toNat < stackDepth by rw [hsub]; exact hlt)]
      simp only [hsub]
    · refine .inr (.inr ⟨by omega, ?_⟩)
      rw [pop, if_neg hne, dif_neg (show ¬ (s.sp - 1).toNat < stackDepth by rw [hsub]; exact hlt)]

/-- Everything the fetch can do: the word of the two bytes at `PC`, or nothing when one of them does not exist. -/
theorem fetch_cases (s : State) :
    (s.pc.toNat ≤ 0x0FFE ∧ s.fetch = some (wordOfBytes (Memory.read s.cfg.glyphTable s.mem s.pc.toNat)
      (Memory.read s.cfg.glyphTable s.mem (s.pc.toNat + 1)))) ∨
    (0x0FFE < s.pc.toNat ∧ s.fetch = none) := by
  by_cases h : s.pc.toNat ≤ 0x0FFE
  · have h1 : s.pc.toNat < memSize := by simp [memSize]; omega
    have h2 : s.pc.toNat + 1 < memSize := by simp [memSize]; omega
    exact .inl ⟨h, by simp only [fetch, memRead, h1, h2, if_true]⟩
  · have h2 : ¬ s.pc.toNat + 1 < memSize := by simp [memSize]; omega
    refine .inr ⟨by omega, ?_⟩
    simp only [fetch, memRead, h2, if_false]
    split <;> simp_all

@[simp] theorem fetch_setPc_self (s : State) : (s.setPc s.pc).fetch = s.fetch := rfl
@[simp] theorem fetch_halt (s : State) : s.halt.fetch = s.fetch := rfl

/-- The counter saturates (R33). -/
theorem countUp_toNat (n : Word) : (countUp n).toNat = min (n.toNat + 1) 0xFFFF := by
  unfold countUp
  split
  · subst n; rfl
  · have h : n.toNat ≠ 0xFFFF := fun e => ‹¬ n = 0xFFFF› (BitVec.eq_of_toNat_eq (by simpa using e))
    have := n.isLt
    rw [BitVec.toNat_add]; simp; omega

/-- The stored flag (R22). -/
theorem flagByte_toNat (b : Bool) : (flagByte b).toNat = if b then 1 else 0 := by cases b <;> rfl

/-- The 9-bit sum does not wrap (R134). -/
theorem wideSum_toNat (a b : Byte) : (wideSum a b).toNat = a.toNat + b.toNat := by
  have := a.isLt
  have := b.isLt
  simp [wideSum]; omega

theorem carryOut_eq (a b : Byte) : carryOut a b = decide (a.toNat + b.toNat > 255) := by
  simp [carryOut, BitVec.lt_def, wideSum_toNat]

theorem sumByte_toNat (a b : Byte) : (sumByte a b).toNat = (a.toNat + b.toNat) % 256 := by
  simp [sumByte, wideSum_toNat]

theorem noBorrow_eq (a b : Byte) : noBorrow a b = decide (b.toNat ≤ a.toNat) := by
  simp [noBorrow, BitVec.le_def]

theorem target_toNat (nnn : Addr12) : (target nnn).toNat = nnn.toNat := by
  have := nnn.isLt
  simp [target]; omega

end Sys2Proof.Machine.State
end

