-- ==== Sys2Proof/Laws/Step.lean ====
section
/-! SUPPORT. Everything a step can do, once: later proofs cite this and never unfold `step`. -/

namespace Sys2Proof.Machine

/-- Every step request is one of four: the core is halted, the fetch faults, the word is unrecognised, or an
instruction executes (40_cycle.md R91). -/
theorem step_cases (s : State) :
    (s.fault ≠ 0 ∧ step s = .next s.halt) ∨
    (s.fault = 0 ∧ s.fetch = none ∧ step s = .next (s.raise .fetchOutOfRange)) ∨
    (∃ w u, s.fault = 0 ∧ s.fetch = some w ∧ decode s.cfg.aluExt w = .unrecognised u ∧
      step s = execUnrecognised u s.pc s.fetched) ∨
    (∃ w i, s.fault = 0 ∧ s.fetch = some w ∧ decode s.cfg.aluExt w = .instr i ∧ step s = exec i s.fetched) := by
  by_cases hf : s.fault = 0
  · rcases hw : s.fetch with _ | w
    · exact .inr (.inl ⟨hf, rfl, by simp [step, hf, hw]⟩)
    · rcases hd : decode s.cfg.aluExt w with i | u
      · exact .inr (.inr (.inr ⟨w, i, hf, rfl, hd, by simp [step, hf, hw, hd]⟩))
      · exact .inr (.inr (.inl ⟨w, u, hf, rfl, hd, by simp [step, hf, hw, hd]⟩))
  · exact .inl ⟨hf, by rw [step, if_neg hf]⟩

/-- The shapes of an instruction's effect: what `exec` can answer, over the shared operations. -/
theorem exec_cases (i : Instr) (s : State) :
    (i = .cls ∧ exec i s = .next (s.emit .screenClear)) ∨
    (∃ nnn, i = .jp nnn ∧ exec i s = .next (s.setPc (target nnn))) ∨
    (∃ nnn, i = .call nnn ∧ exec i s = execCall nnn s) ∨
    (i = .ret ∧ exec i s = execRet s) ∨
    (∃ x y kk c, (i = .seImm x kk ∨ i = .sneImm x kk ∨ i = .seReg x y) ∧ exec i s = .next (s.skipIf c)) ∨
    (∃ x y kk b, (i = .ldImm x kk ∨ i = .addImm x kk ∨ i = .ldReg x y ∨ i = .orReg x y ∨ i = .andReg x y ∨
      i = .xorReg x y) ∧ exec i s = .next (s.setReg x b)) ∨
    (∃ x y c b, (i = .addReg x y ∨ i = .sub x y ∨ i = .shr x y ∨ i = .subn x y ∨ i = .shl x y) ∧
      exec i s = .next (s.writeFlagThenResult x c b)) := by
  cases i with
  | cls => exact .inl ⟨rfl, rfl⟩
  | jp nnn => exact .inr (.inl ⟨nnn, rfl, rfl⟩)
  | call nnn => exact .inr (.inr (.inl ⟨nnn, rfl, rfl⟩))
  | ret => exact .inr (.inr (.inr (.inl ⟨rfl, rfl⟩)))
  | seImm x kk => exact .inr (.inr (.inr (.inr (.inl ⟨x, 0, kk, _, .inl rfl, rfl⟩))))
  | sneImm x kk => exact .inr (.inr (.inr (.inr (.inl ⟨x, 0, kk, _, .inr (.inl rfl), rfl⟩))))
  | seReg x y => exact .inr (.inr (.inr (.inr (.inl ⟨x, y, 0, _, .inr (.inr rfl), rfl⟩))))
  | ldImm x kk => exact .inr (.inr (.inr (.inr (.inr (.inl ⟨x, 0, kk, _, by simp, rfl⟩)))))
  | addImm x kk => exact .inr (.inr (.inr (.inr (.inr (.inl ⟨x, 0, kk, _, by simp, rfl⟩)))))
  | ldReg x y => exact .inr (.inr (.inr (.inr (.inr (.inl ⟨x, y, 0, _, by simp, rfl⟩)))))
  | orReg x y => exact .inr (.inr (.inr (.inr (.inr (.inl ⟨x, y, 0, _, by simp, rfl⟩)))))
  | andReg x y => exact .inr (.inr (.inr (.inr (.inr (.inl ⟨x, y, 0, _, by simp, rfl⟩)))))
  | xorReg x y => exact .inr (.inr (.inr (.inr (.inr (.inl ⟨x, y, 0, _, by simp, rfl⟩)))))
  | addReg x y => exact .inr (.inr (.inr (.inr (.inr (.inr ⟨x, y, _, _, by simp, rfl⟩)))))
  | sub x y => exact .inr (.inr (.inr (.inr (.inr (.inr ⟨x, y, _, _, by simp, rfl⟩)))))
  | shr x y => exact .inr (.inr (.inr (.inr (.inr (.inr ⟨x, y, _, _, by simp, rfl⟩)))))
  | subn x y => exact .inr (.inr (.inr (.inr (.inr (.inr ⟨x, y, _, _, by simp, rfl⟩)))))
  | shl x y => exact .inr (.inr (.inr (.inr (.inr (.inr ⟨x, y, _, _, by simp, rfl⟩)))))

/-- Everything `CALL` can do. -/
theorem execCall_cases (nnn : Addr12) (s : State) :
    (s.sp.toNat = 16 ∧ execCall nnn s = .next (s.raise .stackOverflow)) ∨
    (∃ h : s.sp.toNat < 16, execCall nnn s =
        .next { s with stack := s.stack.set s.sp.toNat s.pc, sp := s.sp + 1, pc := target nnn } ∧
      (s.sp + 1).toNat = s.sp.toNat + 1) ∨
    (16 < s.sp.toNat ∧ execCall nnn s = .fault .stackPointerInvalid) := by
  rcases s.push_cases s.pc with ⟨h, e⟩ | ⟨h, e, hsp⟩ | ⟨h, e⟩
  · exact .inl ⟨h, by simp [execCall, e]⟩
  · exact .inr (.inl ⟨h, by simp [execCall, e, State.setPc], hsp⟩)
  · exact .inr (.inr ⟨h, by simp [execCall, e]⟩)

/-- Everything `RET` can do. -/
theorem execRet_cases (s : State) :
    (s.sp.toNat = 0 ∧ execRet s = .next (s.raise .stackUnderflow)) ∨
    (∃ h : s.sp.toNat - 1 < 16, 0 < s.sp.toNat ∧
      execRet s = .next { s with sp := s.sp - 1, pc := s.stack[s.sp.toNat - 1] } ∧
      (s.sp - 1).toNat = s.sp.toNat - 1) ∨
    (16 < s.sp.toNat ∧ execRet s = .fault .stackPointerInvalid) := by
  rcases s.pop_cases with ⟨h, e⟩ | ⟨h, hpos, e, hsp⟩ | ⟨h, e⟩
  · exact .inl ⟨h, by simp [execRet, e]⟩
  · exact .inr (.inl ⟨h, hpos, by simp [execRet, e, State.setPc], hsp⟩)
  · exact .inr (.inr ⟨h, by simp [execRet, e]⟩)

end Sys2Proof.Machine
end

