-- ==== Sys2Proof/Laws/HostPort.lean ====
section
/-! SUPPORT. What each request of the host does, and everything `load` can do. -/

namespace Sys2Proof.Machine

/-- Everything `load` can do (R178, R179). -/
theorem State.load_cases (s : State) (image : List Byte) :
    (image.length + 512 < 4096 ∧ s.load image =
      .ok { s with mem := Memory.writeBytes s.cfg.glyphTable s.mem 512 image, pc := 0x0200 }) ∨
    (¬ image.length + 512 < 4096 ∧ s.load image = .loadTooLarge) := by
  by_cases h : image.length ≤ maxProgramSize
  · exact .inl ⟨by simp only [maxProgramSize] at h; omega, by rw [State.load, if_pos h]; rfl⟩
  · exact .inr ⟨by simp only [maxProgramSize] at h; omega, by rw [State.load, if_neg h]⟩

theorem serve_init (s : State) : serve .init s = .next s.initialise := rfl
theorem serve_step (s : State) : serve .step s = step s := rfl
theorem serve_writeDT (s : State) (b : Byte) : serve (.writeDT b) s = .next (s.writeDT b) := rfl
theorem serve_writeST (s : State) (b : Byte) : serve (.writeST b) s = .next (s.writeST b) := rfl
theorem serve_readState (s : State) : serve .readState s = .next s := rfl

theorem serve_load_ok {s t : State} {image : List Byte} (h : s.load image = .ok t) :
    serve (.load image) s = .next t := by rw [serve, h]

theorem serve_load_refused {s : State} {image : List Byte} (h : s.load image = .loadTooLarge) :
    serve (.load image) s = .next s := by rw [serve, h]

end Sys2Proof.Machine
end

