-- ==== Sys2Proof/Laws/PerInstr.lean ====
section
/-! SUPPORT. Statements for all instructions, proved per constructor: the word the encoder writes for an instruction
selects the instruction's own row of the opcode table. -/

namespace Sys2Proof.Laws.EncodedInTable

/-- The row of `opcodeTable` that bears the instruction's name selects its word, and the row is one of the extension
exactly when the instruction is (30_encoding.md R76, R77, R85). -/
def Statement (i : Instr) : Prop :=
  ∃ row ∈ opcodeTable, row.name = i.rowName ∧ row.extension = i.isExtension ∧ row.selects (encode i) = true

/-- A row at a place of the table proves the statement of an instruction. -/
theorem of_row {i : Instr} (k : Nat) (row : OpcodeRow) (hk : opcodeTable[k]? = some row) (hn : row.name = i.rowName)
    (he : row.extension = i.isExtension) (hs : encode i &&& row.mask = row.pattern) : Statement i :=
  ⟨row, List.mem_of_getElem? hk, hn, he, by simp [OpcodeRow.selects, hs]⟩

theorem cls : Statement .cls := of_row 0 _ rfl rfl rfl rfl
theorem ret : Statement .ret := of_row 1 _ rfl rfl rfl rfl
theorem jp (nnn : Addr12) : Statement (.jp nnn) := of_row 2 _ rfl rfl rfl (wordA_mask _ nnn)
theorem call (nnn : Addr12) : Statement (.call nnn) := of_row 3 _ rfl rfl rfl (wordA_mask _ nnn)
theorem seImm (x : Reg) (kk : Byte) : Statement (.seImm x kk) := of_row 4 _ rfl rfl rfl (wordXK_mask _ x kk)
theorem sneImm (x : Reg) (kk : Byte) : Statement (.sneImm x kk) := of_row 5 _ rfl rfl rfl (wordXK_mask _ x kk)
theorem seReg (x y : Reg) : Statement (.seReg x y) := of_row 6 _ rfl rfl rfl (wordXY_mask _ x y _)
theorem ldImm (x : Reg) (kk : Byte) : Statement (.ldImm x kk) := of_row 7 _ rfl rfl rfl (wordXK_mask _ x kk)
theorem addImm (x : Reg) (kk : Byte) : Statement (.addImm x kk) := of_row 8 _ rfl rfl rfl (wordXK_mask _ x kk)
theorem ldReg (x y : Reg) : Statement (.ldReg x y) := of_row 9 _ rfl rfl rfl (wordXY_mask _ x y _)
theorem orReg (x y : Reg) : Statement (.orReg x y) := of_row 10 _ rfl rfl rfl (wordXY_mask _ x y _)
theorem andReg (x y : Reg) : Statement (.andReg x y) := of_row 11 _ rfl rfl rfl (wordXY_mask _ x y _)
theorem xorReg (x y : Reg) : Statement (.xorReg x y) := of_row 12 _ rfl rfl rfl (wordXY_mask _ x y _)
theorem addReg (x y : Reg) : Statement (.addReg x y) := of_row 13 _ rfl rfl rfl (wordXY_mask _ x y _)
theorem sub (x y : Reg) : Statement (.sub x y) := of_row 14 _ rfl rfl rfl (wordXY_mask _ x y _)
theorem shr (x y : Reg) : Statement (.shr x y) := of_row 15 _ rfl rfl rfl (wordXY_mask _ x y _)
theorem subn (x y : Reg) : Statement (.subn x y) := of_row 16 _ rfl rfl rfl (wordXY_mask _ x y _)
theorem shl (x y : Reg) : Statement (.shl x y) := of_row 17 _ rfl rfl rfl (wordXY_mask _ x y _)

end Sys2Proof.Laws.EncodedInTable
end

