-- ==== Sys2Proof/Tests/Slice0.lean ====
section
/-! SUPPORT. Tests. The expected results are those of 95_test_vectors.md, cited by the vector's name, or of the
encoding tables of 30_encoding.md. The last part shows, for every statement with hypotheses, states and operands that
meet them. -/

namespace Sys2Proof.Tests

open Sys2Proof.Machine

/-! ## Helpers -/

/-- The reset core with an instruction word at `pc`, about to step. -/
def place (w : Nat) (pc : Word) : State := ({ State.reset with pc := pc } : State).withFetchWord 16 w

/-- Give registers values. -/
def withRegs (rs : List (Reg × Byte)) (s : State) : State := rs.foldl (fun s p => s.setReg p.1 p.2) s

/-- The core with `ALU_EXT` false. -/
def withoutExtension (s : State) : State := { s with cfg := { s.cfg with aluExt := false } }

/-- The depth, with every entry holding the same address. -/
def atDepth (d : BitVec 5) (entry : Word) (s : State) : State := { s with sp := d, stack := Vector.replicate 16 entry }

/-- The state after one step. -/
def after (s : State) : Option State :=
  match step s with
  | .next t => some t
  | _ => none

/-- What one step does, seen through a view. -/
def seen {α : Type} (view : State → α) (s : State) : Option α := (after s).map view

/-! ## WellFormed: the check refuses what the core does not have -/

theorem test_wellFormed_refuses_extension_forms :
    (Instr.sub 10 11).wellFormed false = false ∧ (Instr.shr 4 0).wellFormed false = false ∧
    (Instr.subn 10 11).wellFormed false = false ∧ (Instr.shl 4 0).wellFormed false = false := by decide

theorem test_wellFormed_accepts :
    (Instr.sub 10 11).wellFormed true = true ∧ (Instr.addReg 10 11).wellFormed false = true := by decide

/-! ## Decode: one word per constructor, written out bit by bit from 30_encoding.md R71 to R77 -/

theorem test_decode_cls : decode false 0b0000_0000_1110_0000#16 = .instr .cls := by decide
theorem test_decode_ret : decode false 0b0000_0000_1110_1110#16 = .instr .ret := by decide
theorem test_decode_jp : decode false 0b0001_1010_1011_1100#16 = .instr (.jp 0xABC) := by decide
theorem test_decode_call : decode false 0b0010_1111_1111_1111#16 = .instr (.call 0xFFF) := by decide
theorem test_decode_seImm : decode false 0b0011_1010_0100_0010#16 = .instr (.seImm 10 0x42) := by decide
theorem test_decode_sneImm : decode false 0b0100_1111_0000_0000#16 = .instr (.sneImm 15 0x00) := by decide
theorem test_decode_seReg : decode false 0b0101_0001_0010_0000#16 = .instr (.seReg 1 2) := by decide
theorem test_decode_ldImm : decode false 0b0110_1011_1111_1111#16 = .instr (.ldImm 11 0xFF) := by decide
theorem test_decode_addImm : decode false 0b0111_0000_0000_0001#16 = .instr (.addImm 0 0x01) := by decide
theorem test_decode_ldReg : decode false 0b1000_1010_1011_0000#16 = .instr (.ldReg 10 11) := by decide
theorem test_decode_orReg : decode false 0b1000_0000_0001_0001#16 = .instr (.orReg 0 1) := by decide
theorem test_decode_andReg : decode false 0b1000_0000_0001_0010#16 = .instr (.andReg 0 1) := by decide
theorem test_decode_xorReg : decode false 0b1000_0110_0110_0011#16 = .instr (.xorReg 6 6) := by decide
theorem test_decode_addReg : decode false 0b1000_1010_1011_0100#16 = .instr (.addReg 10 11) := by decide
theorem test_decode_sub : decode true 0b1000_1010_1011_0101#16 = .instr (.sub 10 11) := by decide
theorem test_decode_shr : decode true 0b1000_0100_1001_0110#16 = .instr (.shr 4 9) := by decide
theorem test_decode_subn : decode true 0b1000_1010_1011_0111#16 = .instr (.subn 10 11) := by decide
theorem test_decode_shl : decode true 0b1000_1010_1011_1110#16 = .instr (.shl 10 11) := by decide

/-- E3, E4, E10, E16, E18 to E23. -/
theorem test_decode_unrecognised :
    decode true 0x00E1 = .unrecognised 0x00E1 ∧ decode true 0x0000 = .unrecognised 0x0000 ∧
    decode true 0x5121 = .unrecognised 0x5121 ∧ decode true 0x8AB8 = .unrecognised 0x8AB8 ∧
    decode true 0x8ABF = .unrecognised 0x8ABF ∧ decode true 0x9120 = .unrecognised 0x9120 ∧
    decode true 0xA123 = .unrecognised 0xA123 ∧ decode true 0xD015 = .unrecognised 0xD015 ∧
    decode true 0xF090 = .unrecognised 0xF090 ∧ decode true 0xFFFF = .unrecognised 0xFFFF := by decide

/-- E15, E17. -/
theorem test_decode_without_extension :
    decode false 0x8AB5 = .unrecognised 0x8AB5 ∧ decode false 0x8AB6 = .unrecognised 0x8AB6 ∧
    decode false 0x8AB7 = .unrecognised 0x8AB7 ∧ decode false 0x8ABE = .unrecognised 0x8ABE := by decide

theorem test_decodeTableWord :
    decodeTableWord 16 0x8AB4 = some (.addReg 10 11) ∧ decodeTableWord 16 0x00EE = some .ret ∧
    decodeTableWord 16 0x5121 = none := by decide

/-! ## One step, from 95_test_vectors.md -/

/-- X1. -/
theorem test_cls_X1 : seen (fun t => (t.outcome, t.pc, t.fault)) (place 0x00E0 0x0200) =
    some (.ok [.screenClear], 0x0202, 0) := by decide
/-- F2. -/
theorem test_ret_F2 : seen (fun t => (t.pc, t.sp, t.stack[0])) (atDepth 1 0x020A (place 0x00EE 0x0216)) =
    some (0x020A, 0, 0x020A) := by decide
/-- F4. -/
theorem test_ret_F4 : seen (fun t => (t.fault, t.pc, t.sp, t.outcome)) (place 0x00EE 0x0200) =
    some (2, 0x0202, 0, .fault .stackUnderflow) := by decide
/-- F10. -/
theorem test_jp_F10 : seen (fun t => (t.pc, t.sp)) (atDepth 3 0x0300 (place 0x1234 0x0200)) = some (0x0234, 3) := by decide
/-- F7. -/
theorem test_jp_F7 : seen (fun t => t.pc) (place 0x1301 0x0200) = some 0x0301 := by decide
/-- F8. -/
theorem test_call_F8 : seen (fun t => (t.stack[15], t.sp, t.pc)) (atDepth 15 0x0300 (place 0x2300 0x0200)) =
    some (0x0202, 16, 0x0300) := by decide
/-- F3. -/
theorem test_call_F3 : seen (fun t => (t.fault, t.pc, t.sp, t.stack[15])) (atDepth 16 0x0300 (place 0x2500 0x0400)) =
    some (1, 0x0402, 16, 0x0300) := by decide
/-- Q1 and Q2. -/
theorem test_seImm_Q1 : seen (fun t => t.pc) (withRegs [(3, 0x2A)] (place 0x332A 0x0204)) = some 0x0208 := by decide
theorem test_seImm_Q2 : seen (fun t => t.pc) (withRegs [(3, 0x2B)] (place 0x332A 0x0204)) = some 0x0206 := by decide
/-- Q3 and Q4. -/
theorem test_sneImm_Q3 : seen (fun t => t.pc) (withRegs [(3, 0x2A)] (place 0x432A 0x0204)) = some 0x0206 := by decide
theorem test_sneImm_Q4 : seen (fun t => t.pc) (withRegs [(3, 0x2B)] (place 0x432A 0x0204)) = some 0x0208 := by decide
/-- Q5 and Q6. -/
theorem test_seReg_Q5 : seen (fun t => t.pc) (withRegs [(1, 7), (2, 7)] (place 0x5120 0x0204)) = some 0x0208 := by decide
theorem test_seReg_Q6 : seen (fun t => t.pc) (withRegs [(1, 7), (2, 8)] (place 0x5120 0x0204)) = some 0x0206 := by decide
/-- M1. -/
theorem test_ldImm_M1 : seen (fun t => (t.reg 10, t.pc)) (place 0x6A0C 0x0200) = some (0x0C, 0x0202) := by decide
/-- M3 and M8. -/
theorem test_addImm_M3 : seen (fun t => (t.reg 0, t.reg 15)) (withRegs [(0, 0xFF), (15, 0x55)] (place 0x7002 0x0200)) =
    some (0x01, 0x55) := by decide
theorem test_addImm_M8 : seen (fun t => t.reg 15) (withRegs [(15, 0xFE)] (place 0x7F03 0x0200)) = some 0x01 := by decide
/-- A16. -/
theorem test_ldReg_A16 : seen (fun t => (t.reg 2, t.reg 15)) (withRegs [(15, 0x01), (2, 0x77)] (place 0x82F0 0x0200)) =
    some (0x01, 0x01) := by decide
/-- A1. -/
theorem test_orReg_A1 : seen (fun t => (t.reg 0, t.reg 15))
    (withRegs [(0, 0xF0), (1, 0x0F), (15, 0x55)] (place 0x8011 0x0200)) = some (0xFF, 0x55) := by decide
/-- A2. -/
theorem test_andReg_A2 : seen (fun t => t.reg 0) (withRegs [(0, 0xF0), (1, 0x3C)] (place 0x8012 0x0200)) = some 0x30 := by decide
/-- A3 and A4. -/
theorem test_xorReg_A3 : seen (fun t => t.reg 0) (withRegs [(0, 0xF0), (1, 0x3C)] (place 0x8013 0x0200)) = some 0xCC := by decide
theorem test_xorReg_A4 : seen (fun t => t.reg 6) (withRegs [(6, 0x9D)] (place 0x8663 0x0200)) = some 0x00 := by decide
/-- A9 and A10: `x = 15`, `y = 15`. -/
theorem test_addReg_A9 : seen (fun t => t.reg 15) (withRegs [(15, 0x90), (1, 0x90)] (place 0x8F14 0x0200)) = some 0x20 := by decide
theorem test_addReg_A10 : seen (fun t => (t.reg 1, t.reg 15)) (withRegs [(1, 0xFF), (15, 0x01)] (place 0x81F4 0x0200)) =
    some (0x00, 0x01) := by decide
/-- B2 and B7. -/
theorem test_sub_B2 : seen (fun t => (t.reg 10, t.reg 15)) (withRegs [(10, 0x05), (11, 0x0C)] (place 0x8AB5 0x0200)) =
    some (0xF9, 0x00) := by decide
theorem test_sub_B7 : seen (fun t => t.reg 15) (withRegs [(15, 0x09), (1, 0x04)] (place 0x8F15 0x0200)) = some 0x05 := by decide
/-- B16 and B17. -/
theorem test_shr_B16 : seen (fun t => (t.reg 4, t.reg 15, t.reg 9))
    (withRegs [(4, 0x80), (9, 0x03)] (place 0x8496 0x0200)) = some (0x40, 0x00, 0x03) := by decide
theorem test_shr_B17 : seen (fun t => t.reg 15) (withRegs [(15, 0x03)] (place 0x8F06 0x0200)) = some 0x01 := by decide
/-- B9 and B11. -/
theorem test_subn_B9 : seen (fun t => (t.reg 10, t.reg 15)) (withRegs [(10, 0x05), (11, 0x0C)] (place 0x8AB7 0x0200)) =
    some (0x07, 0x01) := by decide
theorem test_subn_B11 : seen (fun t => (t.reg 10, t.reg 15)) (withRegs [(10, 0x80), (11, 0x7F)] (place 0x8AB7 0x0200)) =
    some (0xFF, 0x00) := by decide
/-- B18 and B22. -/
theorem test_shl_B18 : seen (fun t => (t.reg 4, t.reg 15)) (withRegs [(4, 0xC1)] (place 0x840E 0x0200)) =
    some (0x82, 0x01) := by decide
theorem test_shl_B22 : seen (fun t => t.reg 15) (withRegs [(15, 0x81)] (place 0x8F0E 0x0200)) = some 0x02 := by decide

/-- K1: most significant byte first. -/
theorem test_step_K1 : seen (fun t => t.pc)
    ({ State.reset with pc := 0x0300, mem := [(0x300, 0x12), (0x301, 0x34)] } : State) = some 0x0234 := by decide
/-- K3, K5, K6. -/
theorem test_step_K3 : seen (fun t => (t.reg 0, t.pc, t.outcome)) (place 0x6007 0x0FFE) = some (0x07, 0x1000, .ok []) := by decide
theorem test_step_K5 : seen (fun t => (t.fault, t.pc)) ({ State.reset with pc := 0x0FFF } : State) = some (3, 0x0FFF) := by decide
theorem test_step_K6 : seen (fun t => (t.fault, t.pc, t.outcome)) ({ place 0x6007 0x0200 with fault := 1 } : State) =
    some (1, 0x0200, .halted) := by decide
/-- K8 and K10. -/
theorem test_step_K8 : seen (fun t => (t.unrecCnt, t.pc, t.outcome))
    ({ State.reset with pc := 0x0300, unrecCnt := 0xFFFF } : State) =
    some (0xFFFF, 0x0302, .ok [.unrecognized 0x0000 0x0300]) := by decide
theorem test_step_K10 : seen (fun t => (t.reg 10, t.unrecCnt, t.pc))
    (withRegs [(10, 0x0C), (11, 0x05)] (withoutExtension (place 0x8AB5 0x0300))) = some (0x0C, 1, 0x0302) := by decide

/-! ## Reset and load -/

/-- Z1. -/
theorem test_reset_Z1 :
    [0, 4, 5, 9, 79, 80, 4095].map State.reset.memRead =
      [some 0xF0, some 0xF0, some 0x20, some 0x70, some 0x80, some 0x00, some 0x00] := by decide
/-- Z6. -/
theorem test_load_Z6 : serveAll [.init, .load [0x60, 0x2A], .step] State.reset =
    .next { State.reset with v := State.reset.v.set 0 0x2A, pc := 0x0202, mem := [(0x200, 0x60), (0x201, 0x2A)] } := by
  rfl
/-- Z3. -/
theorem test_load_Z3 : State.reset.load (List.replicate 3584 0xAA) = .loadTooLarge := by
  rcases State.reset.load_cases (List.replicate 3584 0xAA) with ⟨h, _⟩ | ⟨_, h⟩
  · rw [List.length_replicate] at h; omega
  · exact h

/-! ## Witnesses: for each statement with hypotheses, states and operands that meet them

A statement that needs no hypothesis beyond `exec`'s or `decode`'s arguments has no entry here. -/

/-- A halted core with a counter. -/
def halted : State := { place 0x6007 0x0200 with fault := 1, unrecCnt := 9 }

/-- A core at depth `d` with valid entries and `PC` at the word `w` at 0x0200. -/
def deep (d : BitVec 5) (w : Nat) : State := atDepth d 0x0300 (place w 0x0200)

/-- The instruction a step is about to execute, read off the fetch and the decoder. -/
theorem executes_of {s : State} {i : Instr} (w : Word) (h0 : s.fault = 0) (hf : s.fetch = some w)
    (hd : decode s.cfg.aluExt w = .instr i) : s.Executes i := ⟨h0, w, hf, hd⟩

/-- LoadAcceptedExactlyWhenImageFits, LoadCopiesImageAndSetsPc: an image of 3583 bytes fits, one of 3584 does not. -/
theorem test_witness_load_bound :
    (List.replicate 3583 (0xAA : Byte)).length + 512 < 4096 ∧ ([] : List Byte).length + 512 < 4096 ∧
    ¬ (List.replicate 3584 (0xAA : Byte)).length + 512 < 4096 := by
  rw [List.length_replicate, List.length_replicate]; decide

/-- OnlyInitClearsFaultAndCounter: `init` of a halted core (Z7) meets the hypotheses of both clauses. -/
theorem test_witness_onlyInit : ∃ t, serve .init halted = .next t ∧ halted.fault ≠ 0 ∧ t.fault ≠ halted.fault ∧
    t.unrecCnt.toNat < halted.unrecCnt.toNat := ⟨_, rfl, by decide⟩

/-- HaltedCoreStaysHaltedUntilInit, HaltedCoreChangesNothing. -/
theorem test_witness_halted : halted.fault ≠ 0 ∧ Request.init ∉ [Request.step, .writeDT 7, .readState, .step] ∧
    ∃ t, serveAll [.step, .writeDT 7, .readState, .step] halted = .next t := ⟨by decide, by decide, _, rfl⟩

/-- StepKeepsTheMachineInvariant: depth 16 and `PC` at its highest, whose step faults, and a step that goes on. -/
theorem test_witness_invariant :
    ({ deep 16 0x6007 with pc := 0x1002 } : State).Inv ∧ (deep 1 0x00EE).Inv ∧
    (∃ t, step ({ deep 16 0x6007 with pc := 0x1002 } : State) = .next t) ∧ ∃ t, step (deep 1 0x00EE) = .next t :=
  ⟨by decide, by decide, ⟨_, rfl⟩, ⟨_, rfl⟩⟩

/-- ReachableStatesMeetTheMachineInvariant, second clause: each request of the host, from a state at depth 16 with `PC` at
its highest that meets the invariant. -/
theorem test_witness_requests : ({ deep 16 0x6007 with pc := 0x1002 } : State).Inv ∧
    ∀ r ∈ [Request.init, .load [], .load [0x60, 0x2A], .step, .writeDT 7, .writeST 7, .readState],
      ∃ t, serve r ({ deep 16 0x6007 with pc := 0x1002 } : State) = .next t := by
  refine ⟨by decide, ?_⟩
  simp only [List.forall_mem_cons, List.not_mem_nil, false_implies, implies_true, and_true]
  exact ⟨⟨_, rfl⟩, ⟨_, rfl⟩, ⟨_, rfl⟩, ⟨_, rfl⟩, ⟨_, rfl⟩, ⟨_, rfl⟩, ⟨_, rfl⟩⟩

/-- ReachableStatesMeetTheMachineInvariant, third clause: a state after `load` and a step. -/
theorem test_witness_reachable : ∃ t, Reachable t ∧ t.pc = 0x0202 ∧ t.reg 0 = 0x2A :=
  ⟨{ State.reset with v := State.reset.v.set 0 0x2A, pc := 0x0202, mem := [(0x200, 0x60), (0x201, 0x2A)] },
    .request (s := { State.reset with pc := 0x0200, mem := [(0x200, 0x60), (0x201, 0x2A)] }) .step
      (.request (.load [0x60, 0x2A]) (.init Config.standard) rfl) rfl, by decide, by decide⟩

/-- StepAlwaysAnswersNextState: the depths 0 and 16. -/
theorem test_witness_depthOk : State.reset.DepthOk ∧ (deep 16 0x00EE).DepthOk := by decide

/-- FetchReadsMostSignificantByteFirst, PlacedWordIsFetchedNext: the lowest and the highest `PC`. -/
theorem test_witness_fetch : (place 0x00E0 0x0000).pc.toNat ≤ 4094 ∧ (place 0x00E0 0x0FFE).pc.toNat ≤ 4094 ∧
    (place 0x00E0 0x0FFE).pc ≤ 0x0FFE ∧ (place 0x00E0 0x0FFE).fetch = some 0x00E0 := by decide

/-- FetchFailsExactlyBeyondMemory, FetchBeyondMemoryFaults: both sides of the bound. -/
theorem test_witness_fetch_bound : ({ State.reset with pc := 0x0FFF } : State).fetch = none ∧
    ({ State.reset with pc := 0x0FFE } : State).fetch = some 0x0000 ∧
    ({ State.reset with pc := 0x0FFF } : State).fault = 0 ∧ ({ State.reset with pc := 0x0FFF } : State).pc > 0x0FFE ∧
    ({ State.reset with pc := 0xFFFF } : State).pc > 0x0FFE := by decide

/-- StepRunsTheDecodedInstruction: the last address at which an instruction can stand. -/
theorem test_witness_stepRuns : (place 0x8AB5 0x0FFE).fault = 0 ∧
    (place 0x8AB5 0x0FFE).memRead (place 0x8AB5 0x0FFE).pc.toNat = some 0x8A ∧
    (place 0x8AB5 0x0FFE).memRead ((place 0x8AB5 0x0FFE).pc.toNat + 1) = some 0xB5 ∧
    decodeBytes (place 0x8AB5 0x0FFE).cfg.aluExt 0x8A 0xB5 = .instr (.sub 10 11) := by decide

/-- UnrecognisedWordIsCountedAndReported: from a counter of 0 and from the saturated one. -/
theorem test_witness_unrecognised : (place 0xD015 0x0300).ExecutesUnrecognised 0xD015 ∧
    ({ place 0x0000 0x0300 with unrecCnt := 0xFFFF } : State).ExecutesUnrecognised 0x0000 :=
  ⟨⟨by decide, by decide, by decide⟩, ⟨by decide, by decide, by decide⟩⟩

/-- FaultsAreExactlyTheThreeAndPrecise: one running state for each of the three codes. -/
theorem test_witness_faults :
    (deep 16 0x2500).fault = 0 ∧ seen (fun t => t.fault) (deep 16 0x2500) = some 1 ∧
    (deep 0 0x00EE).fault = 0 ∧ seen (fun t => t.fault) (deep 0 0x00EE) = some 2 ∧
    seen (fun t => t.fault) ({ State.reset with pc := 0x0FFF } : State) = some 3 := by decide

/-- OutcomeAgreesWithFaultRegister, EventsNameTheirSource, CounterCountsExactlyUnrecognisedWords,
NoStepWritesIndexTimersOrMemory: steps that answer each outcome and each event. -/
theorem test_witness_outcomes :
    seen (fun t => t.outcome) (place 0x6007 0x0200) = some (.ok []) ∧
    seen (fun t => t.outcome) (place 0x00E0 0x0200) = some (.ok [.screenClear]) ∧
    seen (fun t => t.outcome) (place 0x9120 0x0200) = some (.ok [.unrecognized 0x9120 0x0200]) ∧
    seen (fun t => t.outcome) (deep 0 0x00EE) = some (.fault .stackUnderflow) ∧
    seen (fun t => t.outcome) halted = some .halted := by decide

/-- CallReturnDepthMachine, first and second clause: CALL at depths 0, 15 and 16, RET at depths 1, 16 and 0. -/
theorem test_witness_callReturn :
    (deep 0 0x2300).Executes (.call 0x300) ∧ (deep 15 0x2300).Executes (.call 0x300) ∧
    (deep 16 0x2300).Executes (.call 0x300) ∧
    (deep 1 0x00EE).Executes .ret ∧ (deep 16 0x00EE).Executes .ret ∧ (deep 0 0x00EE).Executes .ret :=
  ⟨executes_of 0x2300 (by decide) (by decide) (by decide), executes_of 0x2300 (by decide) (by decide) (by decide),
    executes_of 0x2300 (by decide) (by decide) (by decide), executes_of 0x00EE (by decide) (by decide) (by decide),
    executes_of 0x00EE (by decide) (by decide) (by decide), executes_of 0x00EE (by decide) (by decide) (by decide)⟩

/-- CallReturnDepthMachine, third clause: an instruction that is neither, and its step. -/
theorem test_witness_otherDepth : (deep 3 0x1234).Executes (.jp 0x234) ∧ (∀ nnn, Instr.jp 0x234 ≠ .call nnn) ∧
    Instr.jp 0x234 ≠ .ret ∧ ∃ t, step (deep 3 0x1234) = .next t :=
  ⟨executes_of 0x1234 (by decide) (by decide) (by decide), fun _ => nofun, nofun, _, rfl⟩

/-- CallReturnDepthMachine, fourth clause (S3): a call, then at once a return. -/
theorem test_witness_roundTrip : (({ deep 0 0x2300 with mem := [(0x200, 0x23), (0x301, 0xEE)] } : State)).Executes (.call 0x300) ∧
    ∃ t, step ({ deep 0 0x2300 with mem := [(0x200, 0x23), (0x301, 0xEE)] } : State) = .next t ∧ t.Executes .ret :=
  ⟨executes_of 0x2300 (by decide) (by decide) (by decide), _, rfl,
    executes_of 0x00EE (by decide) (by decide) (by decide)⟩

/-- RegistersChangeOnlyByTheirInstructions: a register changed as `x`, and `V[15]` changed as the flag. -/
theorem test_witness_registers :
    seen (fun t => t.reg 15) (withRegs [(0, 0xFF), (1, 0x01)] (place 0x8014 0x0200)) = some 1 ∧
    (withRegs [(0, 0xFF), (1, 0x01)] (place 0x8014 0x0200)).reg 15 = 0 ∧
    seen (fun t => t.reg 10) (place 0x6A0C 0x0200) = some 0x0C ∧ (place 0x6A0C 0x0200).reg 10 = 0 := by decide

/-- PcLeavesSequenceOnlyByControlTransfer: each of its four ways, the skip at the highest `PC`. -/
theorem test_witness_pc :
    seen (fun t => t.pc) (place 0x6007 0x0FFE) = some 0x1000 ∧ seen (fun t => t.pc) (place 0x3000 0x0FFE) = some 0x1002 ∧
    seen (fun t => t.pc) (place 0x1FFF 0x0200) = some 0x0FFF ∧ seen (fun t => t.pc) (deep 16 0x00EE) = some 0x0300 ∧
    (place 0x3000 0x0FFE).fault = 0 ∧ (place 0x3000 0x0FFE).pc ≤ 0x0FFE := by decide

/-- FinishedProgramStaysAsItIs (F5). -/
theorem test_witness_finished : (place 0x120E 0x020E).Finished :=
  ⟨0x20E, executes_of 0x120E (by decide) (by decide) (by decide), by decide⟩

/-- TimersAndIndexAreUnobservable, StepReadsMemoryOnlyAtPc, ExtensionParameterMattersToItsFormsOnly: a step, another
memory with the same two bytes at `PC`, and a word of no row of the extension. -/
theorem test_witness_unobserved : (∃ t, step (place 0x8014 0x0200) = .next t) ∧
    ({ place 0x8014 0x0200 with mem := [(0x200, 0x80), (0x201, 0x14), (0x202, 0x99)] } : State).memRead
      (place 0x8014 0x0200).pc.toNat = (place 0x8014 0x0200).memRead (place 0x8014 0x0200).pc.toNat ∧
    ({ place 0x8014 0x0200 with mem := [(0x200, 0x80), (0x201, 0x14), (0x202, 0x99)] } : State).memRead
      ((place 0x8014 0x0200).pc.toNat + 1) = (place 0x8014 0x0200).memRead ((place 0x8014 0x0200).pc.toNat + 1) ∧
    (place 0x8014 0x0200).fetch = some 0x8014 ∧ ∀ row ∈ extensionRows, row.selects 0x8014 = false :=
  ⟨⟨_, rfl⟩, by decide, by decide, by decide, by decide⟩

/-- DeadStackEntriesAreUnobservable: other values in every entry at depth 0, and above the top at depth 1. -/
theorem test_witness_deadEntries :
    SameButDeadEntries (deep 0 0x2300) { deep 0 0x2300 with stack := Vector.replicate 16 0x0777 } ∧
    SameButDeadEntries (deep 1 0x00EE) { deep 1 0x00EE with stack := (Vector.replicate 16 0x0777).set 0 0x0300 } ∧
    (∃ t, step (deep 0 0x2300) = .next t) ∧ ∃ t, step (deep 1 0x00EE) = .next t :=
  ⟨⟨rfl, by decide⟩, ⟨rfl, by decide⟩, ⟨_, rfl⟩, ⟨_, rfl⟩⟩

/-- DecodeOfEncodeIsTheInstruction, EncodeOfDecodeIsTheWord: an instruction of the base set and one of the extension. -/
theorem test_witness_encoding : (Instr.seReg 15 15).wellFormed false = true ∧ (Instr.shl 15 15).wellFormed true = true ∧
    decode false 0x5FF0 = .instr (.seReg 15 15) ∧ decode true 0x8FFE = .instr (.shl 15 15) := by decide

/-- DecodeAgreesWithOpcodeTable, OpcodeRowsArePairwiseDisjoint: a row of the table whose condition holds and a word that
selects it. -/
theorem test_witness_row : (⟨"SHL", 0xF00F, 0x800E, true⟩ : OpcodeRow) ∈ opcodeTable ∧
    (⟨"SHL", 0xF00F, 0x800E, true⟩ : OpcodeRow).enabled true = true ∧
    (⟨"SHL", 0xF00F, 0x800E, true⟩ : OpcodeRow).selects 0x8FFE = true := by decide

/-- PushStoresAtTheDepthOrOverflows, CallPushesPcAndJumps, CallAtDepthSixteenFaults, InvalidDepthStopsCallAndRet: the
depths 0, 15, 16, 17 and 31, and sixteen targets from depth 0. -/
theorem test_witness_push : (deep 0 0x2300).sp.toNat < 16 ∧ (deep 15 0x2300).sp.toNat < 16 ∧ (deep 16 0x2300).sp = 16 ∧
    16 < (deep 17 0x2300).sp.toNat ∧ 16 < (deep 31 0x2300).sp.toNat ∧
    (deep 0 0x2300).sp = 0 ∧ (deep 0 0x2300).fault = 0 ∧ (List.replicate 16 (0x300 : Addr12)).length = 16 := by decide

/-- PopAnswersTheTopOrUnderflows, RetPopsTheTopIntoPc, RetAtDepthZeroFaults: the depths 0, 1 and 16. -/
theorem test_witness_pop : (deep 0 0x00EE).sp = 0 ∧ 0 < (deep 1 0x00EE).sp.toNat ∧ (deep 1 0x00EE).sp.toNat ≤ 16 ∧
    0 < (deep 16 0x00EE).sp.toNat ∧ (deep 16 0x00EE).sp.toNat ≤ 16 := by decide

/-- ClsEmitsScreenClearOnly, the clause on events. -/
theorem test_witness_cls : (place 0x00E0 0x0200).outcome = .ok [] := by decide

/-- AddRegWritesCarryThenSum and the four statements of the extension: the parameter true, `x` not 15, and a register that
is neither `x` nor 15. -/
theorem test_witness_flagWriters : (place 0x8AB5 0x0200).cfg.aluExt = true ∧ (10 : Reg) ≠ 15 ∧ (11 : Reg) ≠ 10 ∧
    (11 : Reg) ≠ 15 := by decide

/-- CanonicalMemoriesAreDeterminedByTheirBytes: a canonical memory, reached also by writing a byte and undoing it. -/
theorem test_witness_memory :
    Memory.wf defaultGlyphTable [(0x200, 0x60)] ∧
    Memory.wf defaultGlyphTable
      (Memory.write defaultGlyphTable (Memory.write defaultGlyphTable [(0x200, 0x60)] 4095 1) 4095 0) ∧
    ∀ a < 4096, Memory.read defaultGlyphTable [(0x200, 0x60)] a = Memory.read defaultGlyphTable
      (Memory.write defaultGlyphTable (Memory.write defaultGlyphTable [(0x200, 0x60)] 4095 1) 4095 0) a :=
  ⟨by decide, by decide, fun _ _ => rfl⟩

end Sys2Proof.Tests
end

section
/-! PROOFS. The stack operations (10_state.md R29, R30): what `push`, `pop` and `CALL` answer at each depth the spec
allows, with their frames, and the depth after nested calls. -/

namespace Sys2Proof.Machine

/-! ## The two bounds of the depth, as values of `SP` and as numbers -/

theorem State.sp_eq_zero_iff (s : State) : s.sp = 0 ↔ s.sp.toNat = 0 := by
  rw [← BitVec.toNat_inj]; rfl

theorem State.sp_eq_sixteen_iff (s : State) : s.sp = 16 ↔ s.sp.toNat = 16 := by
  rw [← BitVec.toNat_inj]; rfl

/-! ## Frames: what writing the stack, `SP` and `PC`, or taking a fault, leaves unchanged -/

theorem sameRegs_withStackPc (s : State) (stack : Vector Word 16) (sp : BitVec 5) (pc : Word) :
    SameRegs s { s with stack := stack, sp := sp, pc := pc } := fun _ => rfl

theorem sameStore_withStackPc (s : State) (stack : Vector Word 16) (sp : BitVec 5) (pc : Word) :
    SameStore s { s with stack := stack, sp := sp, pc := pc } := ⟨rfl, rfl, rfl, fun _ => rfl, rfl, rfl⟩

theorem sameStatus_withStackPc (s : State) (stack : Vector Word 16) (sp : BitVec 5) (pc : Word) :
    SameStatus s { s with stack := stack, sp := sp, pc := pc } := ⟨rfl, rfl⟩

theorem sameRegs_raise (s : State) (c : Cause) : SameRegs s (s.raise c) := s.raise_reg c

theorem sameStack_raise (s : State) (c : Cause) : SameStack s (s.raise c) := ⟨s.raise_sp c, s.raise_stack c⟩

theorem sameStore_raise (s : State) (c : Cause) : SameStore s (s.raise c) :=
  ⟨s.raise_i c, s.raise_dt c, s.raise_st c, s.raise_memRead c, s.raise_unrecCnt c, s.raise_cfg c⟩

theorem Cause.code_ne_zero (c : Cause) : c.code ≠ 0 := by cases c <;> decide

/-! ## `push`, `pop` and `CALL` at a known depth -/

theorem State.push_of_sp_eq_sixteen {s : State} (h : s.sp = 16) (a : Word) : s.push a = .overflow := by
  rw [sp_eq_sixteen_iff] at h
  rcases s.push_cases a with ⟨_, e⟩ | ⟨hlt, _⟩ | ⟨hgt, _⟩
  · exact e
  · omega
  · omega

theorem State.push_of_sp_lt_sixteen {s : State} (h : s.sp.toNat < 16) (a : Word) :
    s.push a = .ok { s with stack := s.stack.set s.sp.toNat a, sp := s.sp + 1 } ∧
      (s.sp + 1).toNat = s.sp.toNat + 1 := by
  rcases s.push_cases a with ⟨heq, _⟩ | ⟨_, e⟩ | ⟨hgt, _⟩
  · omega
  · exact e
  · omega

theorem State.pop_of_sp_eq_zero {s : State} (h : s.sp = 0) : s.pop = .underflow := by
  rw [sp_eq_zero_iff] at h
  rcases s.pop_cases with ⟨_, e⟩ | ⟨_, hpos, _⟩ | ⟨hgt, _⟩
  · exact e
  · omega
  · omega

theorem State.pop_of_sp_pos {s : State} (hpos : 0 < s.sp.toNat) (h : s.sp.toNat ≤ 16) :
    s.pop = .ok s.stack[s.sp.toNat - 1] { s with sp := s.sp - 1 } ∧ (s.sp - 1).toNat = s.sp.toNat - 1 := by
  rcases s.pop_cases with ⟨h0, _⟩ | ⟨_, _, e⟩ | ⟨hgt, _⟩
  · omega
  · exact e
  · omega

theorem exec_call (nnn : Addr12) (s : State) : exec (.call nnn) s = execCall nnn s := rfl

theorem exec_call_of_sp_eq_sixteen {s : State} (h : s.sp = 16) (nnn : Addr12) :
    exec (.call nnn) s = .next (s.raise .stackOverflow) := by
  rw [exec_call, execCall, State.push_of_sp_eq_sixteen h]

theorem exec_call_of_sp_lt_sixteen {s : State} (h : s.sp.toNat < 16) (nnn : Addr12) :
    exec (.call nnn) s =
      .next { s with stack := s.stack.set s.sp.toNat s.pc, sp := s.sp + 1, pc := target nnn } := by
  rw [exec_call, execCall, (State.push_of_sp_lt_sixteen h s.pc).1]; rfl

/-! ## Nested calls -/

theorem callNested_cons_of_next {nnn : Addr12} {s t : State} (h : exec (.call nnn) s = .next t)
    (rest : List Addr12) : callNested (nnn :: rest) s = callNested rest t := by
  rw [callNested, h]

/-- As long as the stack has room for them all, nested calls succeed, each adds one to the depth, and none touches
`FAULT`. -/
theorem callNested_of_room (targets : List Addr12) (s : State) (h : s.sp.toNat + targets.length ≤ 16) :
    ∃ t, callNested targets s = .next t ∧ t.sp.toNat = s.sp.toNat + targets.length ∧ t.fault = s.fault := by
  induction targets generalizing s with
  | nil => exact ⟨s, rfl, rfl, rfl⟩
  | cons nnn rest ih =>
    rw [List.length_cons] at h ⊢
    have hlt : s.sp.toNat < 16 := by omega
    have hsp := (State.push_of_sp_lt_sixteen hlt s.pc).2
    rw [callNested_cons_of_next (exec_call_of_sp_lt_sixteen hlt nnn)]
    obtain ⟨t, ht, hd, hf⟩ := ih { s with stack := s.stack.set s.sp.toNat s.pc, sp := s.sp + 1, pc := target nnn }
      (by dsimp only; omega)
    exact ⟨t, ht, by dsimp only at hd; omega, hf⟩

/-! ## The obligations -/

/-- Settles O39, from the cases of `push` and, for nested calls, induction on the list of targets. -/
theorem pushStoresAtTheDepthOrOverflows : Obligations.PushStoresAtTheDepthOrOverflows := by
  refine ⟨fun s a h => ?_, fun s a h => ?_, fun s targets nnn h0 hf hlen => ?_⟩
  · exact State.push_of_sp_eq_sixteen h a
  · obtain ⟨hpush, hsp⟩ := State.push_of_sp_lt_sixteen h a
    exact ⟨_, hpush, Vector.getElem?_set_self h, hsp, fun k hk => Vector.getElem?_set_ne h hk.symm, rfl,
      sameRegs_withStackPc _ _ _ _, sameStore_withStackPc _ _ _ _, sameStatus_withStackPc _ _ _ _⟩
  · rw [State.sp_eq_zero_iff] at h0
    obtain ⟨t, ht, hdepth, hfault⟩ := callNested_of_room targets s (by omega)
    have h16 : t.sp = 16 := t.sp_eq_sixteen_iff.mpr (by omega)
    exact ⟨t, ht, h16, hfault.trans hf, t.raise .stackOverflow,
      exec_call_of_sp_eq_sixteen h16 nnn, Cause.code_ne_zero .stackOverflow, rfl,
      sameRegs_raise t _, sameStack_raise t _, sameStore_raise t _⟩

/-- Settles O40, from the cases of `pop`. -/
theorem popAnswersTheTopOrUnderflows : Obligations.PopAnswersTheTopOrUnderflows := by
  refine ⟨fun s h0 => State.pop_of_sp_eq_zero h0, fun s hpos hle => ?_⟩
  obtain ⟨hpop, hsp⟩ := State.pop_of_sp_pos hpos hle
  exact ⟨_, _, hpop, Vector.getElem?_eq_getElem (by omega), hsp, rfl, rfl,
    sameRegs_withStackPc _ _ _ _, sameStore_withStackPc _ _ _ _, sameStatus_withStackPc _ _ _ _⟩

end Sys2Proof.Machine
end

section
/-! PROOFS. The fields of a word as the shifts and masks of R71, and how they overlap (30_encoding.md). -/

namespace Sys2Proof

/-- Every field is one shift and one mask; R71's six formulas are its instances at the field's low bit and width. -/
theorem field_toNat_eq_shift_mask (w : Word) (lo width : Nat) :
    (w.extractLsb' lo width).toNat = (w.toNat >>> lo) &&& (2 ^ width - 1) := by
  rw [BitVec.extractLsb'_toNat, Nat.and_two_pow_sub_one_eq_mod]

theorem kkField_eq_y_n (w : Word) : (kkField w).toNat = (yField w).val * 16 + (nField w).toNat := by
  rw [kkField_toNat, yField_val, nField_toNat]; omega

theorem nnnField_eq_x_kk (w : Word) : (nnnField w).toNat = (xField w).val * 256 + (kkField w).toNat := by
  rw [nnnField_toNat, xField_val, kkField_toNat]; omega

theorem nnnField_eq_x_y_n (w : Word) :
    (nnnField w).toNat = (xField w).val * 256 + (yField w).val * 16 + (nField w).toNat := by
  rw [nnnField_eq_x_kk, kkField_eq_y_n, Nat.add_assoc]

/-- Settles O37: each field is an instance of the general shift-and-mask lemma, and the overlaps are base-16
arithmetic. -/
theorem fieldsAreShiftsAndMasks : Obligations.FieldsAreShiftsAndMasks := fun w =>
  ⟨field_toNat_eq_shift_mask w 12 4, field_toNat_eq_shift_mask w 8 4, field_toNat_eq_shift_mask w 4 4,
    field_toNat_eq_shift_mask w 0 4, field_toNat_eq_shift_mask w 0 8, field_toNat_eq_shift_mask w 0 12,
    kkField_eq_y_n w, nnnField_eq_x_y_n w, nnnField_eq_x_kk w⟩

end Sys2Proof
end

section
/-! PROOFS. The display instruction (41_display.md R100): the word of `CLS`, its answer, and the frame of emitting an
event. -/

namespace Sys2Proof.Machine

/-- `CLS` is tested before the high-nibble dispatch, so `ALU_EXT` has no say in it (30_encoding.md R75). -/
theorem decode_clsWord (aluExt : Bool) : decode aluExt 0x00E0 = .instr .cls := if_pos rfl

theorem exec_cls (s : State) : exec .cls s = .next (s.emit .screenClear) := rfl

/-- An outcome that is still `ok` receives the event at the end of its list (40_cycle.md R98). -/
theorem State.emit_outcome_of_ok {s : State} {events : List Event} (h : s.outcome = .ok events) (e : Event) :
    (s.emit e).outcome = .ok (events ++ [e]) := by
  rw [State.emit_outcome, h, StepOutcome.push]

theorem sameRegs_emit (s : State) (e : Event) : SameRegs s (s.emit e) := s.emit_reg e

theorem sameStack_emit (s : State) (e : Event) : SameStack s (s.emit e) := ⟨s.emit_sp e, s.emit_stack e⟩

theorem sameStore_emit (s : State) (e : Event) : SameStore s (s.emit e) :=
  ⟨s.emit_i e, s.emit_dt e, s.emit_st e, s.emit_memRead e, s.emit_unrecCnt e, s.emit_cfg e⟩

/-- Settles O47: `CLS` is `emit .screenClear`, whose frame is everything but the outcome. -/
theorem clsEmitsScreenClearOnly : Obligations.ClsEmitsScreenClearOnly :=
  ⟨decode_clsWord, fun s => ⟨s.emit .screenClear, exec_cls s, fun _ hok => State.emit_outcome_of_ok hok .screenClear,
    s.emit_pc _, s.emit_fault _, sameRegs_emit s _, sameStack_emit s _, sameStore_emit s _⟩⟩

end Sys2Proof.Machine
end

section
/-! PROOFS. Control transfer (42_control_flow.md R105 to R108): what a step that executes `CALL`, `RET` or another
instruction does to the depth, and the round trip of a call and its return. -/

namespace Sys2Proof.Machine

/-! ## From the step to its instruction -/

theorem State.Executes.fault_eq_zero {s : State} {i : Instr} (h : s.Executes i) : s.fault = 0 := h.1

/-- The step of a state that `Executes` an instruction is `exec` of it after the fetch (40_cycle.md R91). -/
theorem State.Executes.step_eq {s : State} {i : Instr} (h : s.Executes i) : step s = exec i s.fetched := by
  obtain ⟨hrun, w, hw, hd⟩ := h
  rcases step_cases s with ⟨hhalt, _⟩ | ⟨_, hnone, _⟩ | ⟨w', u, _, hw', hd', _⟩ | ⟨w', i', _, hw', hd', hstep⟩
  · exact absurd hrun hhalt
  · simp [hw] at hnone
  · obtain rfl : w = w' := by simpa [hw] using hw'
    simp [hd] at hd'
  · obtain rfl : w = w' := by simpa [hw] using hw'
    obtain rfl : i = i' := by simpa [hd] using hd'
    exact hstep

/-! ## `RET` at a known depth -/

theorem exec_ret (s : State) : exec .ret s = execRet s := rfl

theorem exec_ret_of_sp_eq_zero {s : State} (h : s.sp = 0) : exec .ret s = .next (s.raise .stackUnderflow) := by
  rw [exec_ret, execRet, State.pop_of_sp_eq_zero h]

theorem exec_ret_of_sp_pos {s : State} (hpos : 0 < s.sp.toNat) (h : s.sp.toNat ≤ 16) :
    exec .ret s = .next { s with sp := s.sp - 1, pc := s.stack[s.sp.toNat - 1] } := by
  rw [exec_ret, execRet, (State.pop_of_sp_pos hpos h).1]; rfl

/-- `RET` at depth `d + 1` goes to the entry `d`, which is what a `CALL` at depth `d` wrote. -/
theorem exec_ret_of_sp_eq_succ {s : State} {d : BitVec 5} (hd : d.toNat < 16) (hsp : s.sp = d + 1) :
    exec .ret s = .next { s with sp := d, pc := s.stack[d.toNat] } := by
  have hnat : s.sp.toNat = d.toNat + 1 := by rw [hsp, BitVec.toNat_add]; simp; omega
  have hback : s.sp - 1 = d := by rw [hsp, BitVec.add_sub_cancel]
  rw [exec_ret_of_sp_pos (by omega) (by omega)]
  simp only [hback, hnat, Nat.add_sub_cancel]

/-! ## The other instructions -/

/-- Only `CALL` and `RET` reach the stack: the other shapes of an effect are an event, a write of `PC`, a skip and
writes of `V` registers. -/
theorem exec_sameStack {i : Instr} {s t : State} (hcall : ∀ nnn, i ≠ .call nnn) (hret : i ≠ .ret)
    (h : exec i s = .next t) : SameStack s t := by
  rcases exec_cases i s with ⟨_, e⟩ | ⟨_, _, e⟩ | ⟨nnn, hi, _⟩ | ⟨hi, _⟩ | ⟨_, _, _, _, _, e⟩ | ⟨_, _, _, _, _, e⟩ |
    ⟨_, _, _, _, _, e⟩
  case inr.inr.inl => exact absurd hi (hcall nnn)
  case inr.inr.inr.inl => exact absurd hi hret
  all_goals
    obtain rfl := Host.Outcome.next.inj (e.symm.trans h)
    simp [SameStack]

/-! ## The call/return state machine -/

theorem step_call_of_sp_lt_sixteen {s : State} {nnn : Addr12} (hs : s.Executes (.call nnn)) (h : s.sp.toNat < 16) :
    step s = .next { s.fetched with stack := s.stack.set s.sp.toNat (s.pc + 2), sp := s.sp + 1, pc := target nnn } :=
  hs.step_eq.trans (exec_call_of_sp_lt_sixteen (s := s.fetched) h nnn)

/-- A `CALL` with room on the stack, then at once a `RET`: the entry the call wrote is the one the return reads. -/
theorem step_ret_after_call {s t : State} {nnn : Addr12} (hs : s.Executes (.call nnn)) (h : s.sp.toNat < 16)
    (hst : step s = .next t) (ht : t.Executes .ret) : ∃ u, step t = .next u ∧ u.pc = s.pc + 2 ∧ u.sp = s.sp := by
  obtain rfl := Host.Outcome.next.inj ((step_call_of_sp_lt_sixteen hs h).symm.trans hst)
  exact ⟨_, ht.step_eq.trans (exec_ret_of_sp_eq_succ h rfl), Vector.getElem_set_self h, rfl⟩

/-- Settles O23, from the answers of `CALL` and `RET` at each depth, the stack frame of the other instructions and
the round trip. -/
theorem callReturnDepthMachine : Obligations.CallReturnDepthMachine := by
  refine ⟨fun s nnn hs => ⟨fun hlt => ?_, fun hfull => ?_⟩, fun s hs => ⟨fun hpos hle => ?_, fun hempty => ?_⟩,
    fun s t i hs hcall hret hst => exec_sameStack (s := s.fetched) hcall hret (hs.step_eq.symm.trans hst),
    fun s t nnn hs hlt hst ht => step_ret_after_call hs hlt hst ht⟩
  · exact ⟨_, step_call_of_sp_lt_sixteen hs hlt, (State.push_of_sp_lt_sixteen hlt s.pc).2, hs.fault_eq_zero⟩
  · have hexec := exec_call_of_sp_eq_sixteen (s := s.fetched) (s.sp_eq_sixteen_iff.mpr hfull) nnn
    exact ⟨_, hs.step_eq.trans hexec, rfl, Cause.code_ne_zero .stackOverflow⟩
  · have hexec := exec_ret_of_sp_pos (s := s.fetched) hpos hle
    exact ⟨_, hs.step_eq.trans hexec, (State.pop_of_sp_pos hpos hle).2, hs.fault_eq_zero⟩
  · have hexec := exec_ret_of_sp_eq_zero (s := s.fetched) (s.sp_eq_zero_iff.mpr hempty)
    exact ⟨_, hs.step_eq.trans hexec, rfl, Cause.code_ne_zero .stackUnderflow⟩

end Sys2Proof.Machine
end

section
/-! PROOFS. The decoder on words of format XK (30_encoding.md R73, R75): the fields of such a word and the dispatch on
its operation. -/

namespace Sys2Proof

/-! ## The fields of a word of format XK -/

@[simp] theorem opField_wordXK (op : BitVec 4) (x : Reg) (kk : Byte) : opField (wordXK op x kk) = op := by
  have := x.isLt
  have := kk.isLt
  apply BitVec.eq_of_toNat_eq
  rw [opField_toNat, wordXK_toNat]; omega

@[simp] theorem xField_wordXK (op : BitVec 4) (x : Reg) (kk : Byte) : xField (wordXK op x kk) = x := by
  have := x.isLt
  have := kk.isLt
  apply Fin.ext
  rw [xField_val, wordXK_toNat]; omega

@[simp] theorem kkField_wordXK (op : BitVec 4) (x : Reg) (kk : Byte) : kkField (wordXK op x kk) = kk := by
  have := kk.isLt
  apply BitVec.eq_of_toNat_eq
  rw [kkField_toNat, wordXK_toNat]; omega

theorem ofNat_eq_wordXK (op : BitVec 4) (x : Reg) (kk : Byte) :
    BitVec.ofNat 16 (op.toNat * 4096 + x.val * 256 + kk.toNat) = wordXK op x kk := by
  rw [← wordXK_toNat, BitVec.ofNat_toNat, BitVec.setWidth_eq]

/-! ## The dispatch -/

/-- The two full-word literals have operation 0, so every other operation reaches the high-nibble dispatch (R75). -/
theorem decode_of_opField_ne_zero (aluExt : Bool) {w : Word} (h : opField w ≠ 0) :
    decode aluExt w = decodeByHighNibble aluExt w := by
  have hcls : w ≠ 0x00E0#16 := fun e => h (e ▸ rfl)
  have hret : w ≠ 0x00EE#16 := fun e => h (e ▸ rfl)
  rw [decode, if_neg hcls, if_neg hret]

theorem decode_wordXK_ldImm (aluExt : Bool) (x : Reg) (kk : Byte) :
    decode aluExt (wordXK 0x6 x kk) = .instr (.ldImm x kk) := by
  rw [decode_of_opField_ne_zero aluExt (by simp), decodeByHighNibble, opField_wordXK]
  simp

theorem decode_wordXK_addImm (aluExt : Bool) (x : Reg) (kk : Byte) :
    decode aluExt (wordXK 0x7 x kk) = .instr (.addImm x kk) := by
  rw [decode_of_opField_ne_zero aluExt (by simp), decodeByHighNibble, opField_wordXK]
  simp

end Sys2Proof
end

section
/-! PROOFS. The immediate instructions (44_immediate.md R125, R126): each is one plain register write, so the frame of
`setReg` is the frame of both. -/

namespace Sys2Proof.Machine

theorem exec_ldImm (x : Reg) (kk : Byte) (s : State) : exec (.ldImm x kk) s = .next (s.setReg x kk) := rfl

theorem exec_addImm (x : Reg) (kk : Byte) (s : State) :
    exec (.addImm x kk) s = .next (s.setReg x (s.reg x + kk)) := rfl

/-! ## The frame of a register write -/

theorem sameRegsBut_setReg (s : State) (x : Reg) (b : Byte) : SameRegsBut x s (s.setReg x b) :=
  fun _ hr => s.setReg_reg_ne b hr

theorem sameStack_setReg (s : State) (x : Reg) (b : Byte) : SameStack s (s.setReg x b) :=
  ⟨s.setReg_sp x b, s.setReg_stack x b⟩

theorem sameStore_setReg (s : State) (x : Reg) (b : Byte) : SameStore s (s.setReg x b) :=
  ⟨s.setReg_i x b, s.setReg_dt x b, s.setReg_st x b, s.setReg_memRead x b, s.setReg_unrecCnt x b, s.setReg_cfg x b⟩

theorem sameStatus_setReg (s : State) (x : Reg) (b : Byte) : SameStatus s (s.setReg x b) :=
  ⟨s.setReg_fault x b, s.setReg_outcome x b⟩

theorem sameBesidesRegs_setReg (s : State) (x : Reg) (b : Byte) : SameBesidesRegs s (s.setReg x b) :=
  ⟨s.setReg_pc x b, sameStack_setReg s x b, sameStore_setReg s x b, sameStatus_setReg s x b⟩

/-! ## The obligations -/

/-- Settles O50: `LD Vx, kk` is one register write of the immediate. -/
theorem ldImmStoresTheImmediate : Obligations.LdImmStoresTheImmediate := by
  refine fun s x kk => ⟨fun aluExt => ?_, s.setReg x kk, exec_ldImm x kk s, s.setReg_reg_self x kk,
    sameRegsBut_setReg s x kk, sameBesidesRegs_setReg s x kk⟩
  exact (congrArg (decode aluExt) (ofNat_eq_wordXK 0x6 x kk)).trans (decode_wordXK_ldImm aluExt x kk)

/-- Settles O51: `ADD Vx, kk` is one register write of a sum modulo 256; after `LD Vx, kk` its first summand is the
immediate too. -/
theorem addImmWrapsAndWritesNoFlag : Obligations.AddImmWrapsAndWritesNoFlag := by
  refine ⟨fun s x kk => ⟨fun aluExt => ?_, _, exec_addImm x kk s, ?_, sameRegsBut_setReg s x _,
    sameBesidesRegs_setReg s x _⟩, fun s x kk => ⟨_, _, exec_ldImm x kk s, exec_addImm x kk _, ?_⟩⟩
  · exact (congrArg (decode aluExt) (ofNat_eq_wordXK 0x7 x kk)).trans (decode_wordXK_addImm aluExt x kk)
  · rw [State.setReg_reg_self, BitVec.toNat_add]
  · rw [State.setReg_reg_self, State.setReg_reg_self, BitVec.toNat_add, ← Nat.two_mul]

end Sys2Proof.Machine
end

section
/-! PROOFS. The decoder on words of format XY (30_encoding.md R73, R75): the fields of such a word and the second-level
dispatch of the group whose operation is 8. -/

namespace Sys2Proof

/-! ## The fields of a word of format XY -/

@[simp] theorem opField_wordXY (op : BitVec 4) (x y : Reg) (n : BitVec 4) : opField (wordXY op x y n) = op := by
  have := x.isLt
  have := y.isLt
  have := n.isLt
  apply BitVec.eq_of_toNat_eq
  rw [opField_toNat, wordXY_toNat]; omega

@[simp] theorem xField_wordXY (op : BitVec 4) (x y : Reg) (n : BitVec 4) : xField (wordXY op x y n) = x := by
  have := x.isLt
  have := y.isLt
  have := n.isLt
  apply Fin.ext
  rw [xField_val, wordXY_toNat]; omega

@[simp] theorem yField_wordXY (op : BitVec 4) (x y : Reg) (n : BitVec 4) : yField (wordXY op x y n) = y := by
  have := y.isLt
  have := n.isLt
  apply Fin.ext
  rw [yField_val, wordXY_toNat]; omega

@[simp] theorem nField_wordXY (op : BitVec 4) (x y : Reg) (n : BitVec 4) : nField (wordXY op x y n) = n := by
  have := n.isLt
  apply BitVec.eq_of_toNat_eq
  rw [nField_toNat, wordXY_toNat]; omega

theorem ofNat_eq_wordXY (op : BitVec 4) (x y : Reg) (n : BitVec 4) :
    BitVec.ofNat 16 (op.toNat * 4096 + n.toNat + x.val * 256 + y.val * 16) = wordXY op x y n := by
  have hnum : op.toNat * 4096 + n.toNat + x.val * 256 + y.val * 16 = (wordXY op x y n).toNat := by
    rw [wordXY_toNat]; omega
  rw [hnum, BitVec.ofNat_toNat, BitVec.setWidth_eq]

/-! ## The dispatch of group 8 -/

theorem decode_wordXY_group8 (aluExt : Bool) (x y : Reg) (n : BitVec 4) :
    decode aluExt (wordXY 0x8 x y n) = decodeGroup8 aluExt (wordXY 0x8 x y n) := by
  rw [decode_of_opField_ne_zero aluExt (by simp), decodeByHighNibble, opField_wordXY]
  simp

/-- A word `8xyn` written as a number, from its decoding as a word of format XY. -/
theorem decode_ofNat_group8 (aluExt : Bool) (x y : Reg) (n : BitVec 4) :
    decode aluExt (BitVec.ofNat 16 (0x8000 + n.toNat + x.val * 256 + y.val * 16)) =
      decodeGroup8 aluExt (wordXY 0x8 x y n) :=
  (congrArg (decode aluExt) (ofNat_eq_wordXY 0x8 x y n)).trans (decode_wordXY_group8 aluExt x y n)

theorem decodeGroup8_wordXY_ldReg (aluExt : Bool) (op : BitVec 4) (x y : Reg) :
    decodeGroup8 aluExt (wordXY op x y 0x0) = .instr (.ldReg x y) := by
  simp [decodeGroup8]

theorem decodeGroup8_wordXY_orReg (aluExt : Bool) (op : BitVec 4) (x y : Reg) :
    decodeGroup8 aluExt (wordXY op x y 0x1) = .instr (.orReg x y) := by
  simp [decodeGroup8]

theorem decodeGroup8_wordXY_andReg (aluExt : Bool) (op : BitVec 4) (x y : Reg) :
    decodeGroup8 aluExt (wordXY op x y 0x2) = .instr (.andReg x y) := by
  simp [decodeGroup8]

theorem decodeGroup8_wordXY_xorReg (aluExt : Bool) (op : BitVec 4) (x y : Reg) :
    decodeGroup8 aluExt (wordXY op x y 0x3) = .instr (.xorReg x y) := by
  simp [decodeGroup8]

end Sys2Proof
end

section
/-! PROOFS. The register-register instructions without a flag (45_alu.md R130 to R133): each is one plain register
write, whose value alone tells them apart. -/

namespace Sys2Proof.Machine

theorem exec_ldReg (x y : Reg) (s : State) : exec (.ldReg x y) s = .next (s.setReg x (s.reg y)) := rfl

theorem exec_orReg (x y : Reg) (s : State) : exec (.orReg x y) s = .next (s.setReg x (s.reg x ||| s.reg y)) := rfl

theorem exec_andReg (x y : Reg) (s : State) : exec (.andReg x y) s = .next (s.setReg x (s.reg x &&& s.reg y)) := rfl

theorem exec_xorReg (x y : Reg) (s : State) : exec (.xorReg x y) s = .next (s.setReg x (s.reg x ^^^ s.reg y)) := rfl

/-! ## The obligations -/

/-- Settles O52: `LD Vx, Vy` is one register write of the old `V[y]`. -/
theorem ldRegCopiesTheRegister : Obligations.LdRegCopiesTheRegister := by
  refine fun s x y => ⟨fun aluExt => ?_, _, exec_ldReg x y s, s.setReg_reg_self x _, sameRegsBut_setReg s x _,
    sameBesidesRegs_setReg s x _⟩
  exact (decode_ofNat_group8 aluExt x y 0x0).trans (decodeGroup8_wordXY_ldReg aluExt 0x8 x y)

/-- Settles O53: each of the three is one register write, of a value whose bits are given by the two old bits at the
same place. -/
theorem bitwiseGroupActsBitByBitWithoutFlag : Obligations.BitwiseGroupActsBitByBitWithoutFlag := by
  refine fun s x y => ⟨fun aluExt => ⟨?_, ?_, ?_⟩,
    ⟨_, exec_orReg x y s, sameRegsBut_setReg s x _, sameBesidesRegs_setReg s x _, fun hxy => ?_, fun k _ => ?_⟩,
    ⟨_, exec_andReg x y s, sameRegsBut_setReg s x _, sameBesidesRegs_setReg s x _, fun hxy => ?_, fun k _ => ?_⟩,
    ⟨_, exec_xorReg x y s, sameRegsBut_setReg s x _, sameBesidesRegs_setReg s x _, fun hxy => ?_, fun k _ => ?_⟩⟩
  · exact (decode_ofNat_group8 aluExt x y 0x1).trans (decodeGroup8_wordXY_orReg aluExt 0x8 x y)
  · exact (decode_ofNat_group8 aluExt x y 0x2).trans (decodeGroup8_wordXY_andReg aluExt 0x8 x y)
  · exact (decode_ofNat_group8 aluExt x y 0x3).trans (decodeGroup8_wordXY_xorReg aluExt 0x8 x y)
  · rw [State.setReg_reg_self, hxy, BitVec.or_self]
  · rw [State.setReg_reg_self, BitVec.getLsbD_or]
  · rw [State.setReg_reg_self, hxy, BitVec.and_self]
  · rw [State.setReg_reg_self, BitVec.getLsbD_and]
  · rw [State.setReg_reg_self, hxy, BitVec.xor_self]; rfl
  · rw [State.setReg_reg_self, BitVec.getLsbD_xor]

end Sys2Proof.Machine
end

section
/-! PROOFS. Initialisation (70_reset_and_hazards.md R175): the contents of memory, the registers and the stack in the
state that `init` leaves, on every configuration. -/

namespace Sys2Proof.Machine

/-! ## The reset contents of memory (10_state.md R36) -/

theorem resetByte_of_lt {a : Nat} (g : GlyphTable) (h : a < 80) : resetByte g a = g[a] := dif_pos h

theorem resetByte_of_ge {a : Nat} (g : GlyphTable) (h : 80 ≤ a) : resetByte g a = 0 := dif_neg (Nat.not_lt.mpr h)

/-! ## Reads of the state that `init` leaves -/

theorem State.init_memRead {a : Nat} (c : Config) (h : a < memSize) :
    (State.init c).memRead a = some (resetByte c.glyphTable a) := by
  rw [Memory.memRead_eq, if_pos h]
  exact congrArg some (Memory.read_nil c.glyphTable a)

theorem State.init_memRead_glyph {a : Nat} (c : Config) (h : a < 80) :
    (State.init c).memRead a = some c.glyphTable[a] := by
  rw [init_memRead c (by simp only [memSize]; omega), resetByte_of_lt _ h]

theorem State.init_memRead_zero {a : Nat} (c : Config) (hlo : 80 ≤ a) (hhi : a ≤ 4095) :
    (State.init c).memRead a = some 0 := by
  rw [init_memRead c (by simp only [memSize]; omega), resetByte_of_ge _ hlo]

theorem State.init_reg (c : Config) (r : Reg) : (State.init c).reg r = 0 := Vector.getElem_replicate r.isLt

theorem State.init_stack (c : Config) (k : Fin 16) : (State.init c).stack[k.val] = 0 :=
  Vector.getElem_replicate k.isLt

/-! ## The obligation -/

/-- Settles O1: `init` answers `State.init` of the core's own configuration, whose scalar fields are zero by definition
and whose registers, stack entries and bytes are read by the lemmas above. -/
theorem initZeroesStateAndCopiesGlyphs : Obligations.InitZeroesStateAndCopiesGlyphs := fun s =>
  ⟨State.init s.cfg, serve_init s, State.init_reg s.cfg, rfl, rfl, rfl, State.init_stack s.cfg, rfl, rfl,
    fun _ h => State.init_memRead_glyph s.cfg h, fun _ hlo hhi => State.init_memRead_zero s.cfg hlo hhi, rfl, rfl⟩

end Sys2Proof.Machine
end

section
/-! PROOFS. The encoder and the decoder are inverse to each other (30_encoding.md R73, R75 to R77): a word is put
together again from its fields, and the decoder gives exactly the instructions whose encoding the word is. -/

namespace Sys2Proof

/-! ## The fields of a word of format A -/

@[simp] theorem opField_wordA (op : BitVec 4) (nnn : Addr12) : opField (wordA op nnn) = op := by
  have := nnn.isLt
  apply BitVec.eq_of_toNat_eq
  rw [opField_toNat, wordA_toNat]; omega

@[simp] theorem nnnField_wordA (op : BitVec 4) (nnn : Addr12) : nnnField (wordA op nnn) = nnn := by
  have := nnn.isLt
  apply BitVec.eq_of_toNat_eq
  rw [nnnField_toNat, wordA_toNat]; omega

/-! ## A word from its fields -/

theorem wordA_of_opField {w : Word} {op : BitVec 4} (h : opField w = op) : wordA op (nnnField w) = w := by
  subst h
  apply BitVec.eq_of_toNat_eq
  rw [wordA_toNat, opField_toNat, nnnField_toNat]; omega

theorem wordXK_of_opField {w : Word} {op : BitVec 4} (h : opField w = op) :
    wordXK op (xField w) (kkField w) = w := by
  subst h
  apply BitVec.eq_of_toNat_eq
  rw [wordXK_toNat, opField_toNat, xField_val, kkField_toNat]; omega

theorem wordXY_of_opField_of_nField {w : Word} {op n : BitVec 4} (hop : opField w = op) (hn : nField w = n) :
    wordXY op (xField w) (yField w) n = w := by
  subst hop hn
  apply BitVec.eq_of_toNat_eq
  rw [wordXY_toNat, opField_toNat, xField_val, yField_val, nField_toNat]; omega

/-! ## The parameter of the extension -/

theorem ifExtension_eq_instr_iff {aluExt : Bool} {w : Word} {i j : Instr} :
    ifExtension aluExt w j = .instr i ↔ aluExt = true ∧ j = i := by
  cases aluExt <;> simp [ifExtension]

theorem ifExtension_eq_unrecognised_iff {aluExt : Bool} {w u : Word} {j : Instr} :
    ifExtension aluExt w j = .unrecognised u ↔ aluExt = false ∧ w = u := by
  cases aluExt <;> simp [ifExtension]

theorem Instr.wellFormed_iff (aluExt : Bool) (i : Instr) :
    i.wellFormed aluExt = true ↔ (i.isExtension = true → aluExt = true) := by
  cases h : i.isExtension <;> simp [Instr.wellFormed, h]

/-! ## Decoding an encoded instruction -/

/-- The decoder gives a well-formed instruction back from its word (R75 to R77). -/
theorem decode_encode {aluExt : Bool} {i : Instr} (h : i.wellFormed aluExt = true) :
    decode aluExt (encode i) = .instr i := by
  rw [Instr.wellFormed_iff] at h
  cases i
  case cls => rfl
  case ret => rfl
  case sub | shr | subn | shl =>
    exact (decode_wordXY_group8 _ _ _ _).trans (by simp [decodeGroup8, ifExtension, h rfl])
  case ldReg | orReg | andReg | xorReg | addReg =>
    exact (decode_wordXY_group8 _ _ _ _).trans (by simp [decodeGroup8])
  case jp | call | seImm | sneImm | seReg | ldImm | addImm =>
    rw [encode, decode_of_opField_ne_zero _ (by simp)]
    simp [decodeByHighNibble]

/-- Settles O32: the two bytes of a word are the word again, which decodes to the instruction it encodes. -/
theorem decodeOfEncodeIsTheInstruction : Obligations.DecodeOfEncodeIsTheInstruction := fun _ i h => by
  rw [decodeBytes, wordOfBytes_bytes (encode i), decode_encode h]

/-! ## Encoding a decoded instruction -/

theorem encode_of_decodeGroup8 {aluExt : Bool} {w : Word} {i : Instr} (hop : opField w = 0x8)
    (h : decodeGroup8 aluExt w = .instr i) : encode i = w ∧ i.wellFormed aluExt = true := by
  unfold decodeGroup8 at h
  split at h
  case h_1 hn | h_2 hn | h_3 hn | h_4 hn | h_5 hn =>
    cases h
    exact ⟨wordXY_of_opField_of_nField hop hn, rfl⟩
  case h_6 hn | h_7 hn | h_8 hn | h_9 hn =>
    obtain ⟨rfl, rfl⟩ := ifExtension_eq_instr_iff.mp h
    exact ⟨wordXY_of_opField_of_nField hop hn, rfl⟩
  case h_10 => cases h

/-- The decoder answers an instruction only from that instruction's own word, and only one the core has. -/
theorem encode_of_decode {aluExt : Bool} {w : Word} {i : Instr} (h : decode aluExt w = .instr i) :
    encode i = w ∧ i.wellFormed aluExt = true := by
  unfold decode at h
  split_ifs at h with hcls hret
  · cases h; exact ⟨hcls.symm, rfl⟩
  · cases h; exact ⟨hret.symm, rfl⟩
  unfold decodeByHighNibble at h
  split at h
  case h_1 hop | h_2 hop => cases h; exact ⟨wordA_of_opField hop, rfl⟩
  case h_3 hop | h_4 hop | h_6 hop | h_7 hop => cases h; exact ⟨wordXK_of_opField hop, rfl⟩
  case h_5 hop =>
    split_ifs at h with hn
    cases h; exact ⟨wordXY_of_opField_of_nField hop hn, rfl⟩
  case h_8 hop => exact encode_of_decodeGroup8 hop h
  case h_9 => cases h

/-- Settles O33, by the dispatch: each of its branches fixes the operation (and the low nibble) of the word. -/
theorem encodeOfDecodeIsTheWord : Obligations.EncodeOfDecodeIsTheWord := fun _ _ _ h => encode_of_decode h

/-- A word decodes to an instruction exactly when it is the word of that instruction and the core has it. -/
theorem decode_eq_instr_iff {aluExt : Bool} {w : Word} {i : Instr} :
    decode aluExt w = .instr i ↔ encode i = w ∧ i.wellFormed aluExt = true :=
  ⟨encode_of_decode, fun ⟨hw, hwf⟩ => hw ▸ decode_encode hwf⟩

/-! ## The word handed on -/

/-- The decoder hands an unrecognised word on as it was fetched (R79). -/
theorem eq_of_decode_eq_unrecognised {aluExt : Bool} {w u : Word} (h : decode aluExt w = .unrecognised u) :
    u = w := by
  unfold decode at h
  split_ifs at h
  unfold decodeByHighNibble at h
  split at h
  case h_5 => split_ifs at h; cases h; rfl
  case h_8 =>
    unfold decodeGroup8 at h
    split at h
    case h_6 | h_7 | h_8 | h_9 => exact (ifExtension_eq_unrecognised_iff.mp h).2.symm
    case h_10 => cases h; rfl
    all_goals cases h
  case h_9 => cases h; rfl
  all_goals cases h

/-- A word is unrecognised exactly when it decodes to no instruction. -/
theorem decode_eq_unrecognised_iff {aluExt : Bool} {w : Word} :
    decode aluExt w = .unrecognised w ↔ ∀ i, decode aluExt w ≠ .instr i := by
  rcases h : decode aluExt w with i | u
  · simp
  · simp [eq_of_decode_eq_unrecognised h]

end Sys2Proof
end

section
/-! PROOFS. The decoder and the opcode table (30_encoding.md R76 to R79, R85): each word selects at most one row, and
decodes to an instruction exactly when the row it selects is enabled. -/

namespace Sys2Proof

/-! ## The rows a word selects -/

theorem OpcodeRow.selects_iff (row : OpcodeRow) (w : Word) : row.selects w = true ↔ w &&& row.mask = row.pattern :=
  beq_iff_eq

theorem opField_of_maskA {w : Word} {op : BitVec 4} (h : w &&& 0xF000#16 = wordA op 0) : opField w = op := by
  apply BitVec.eq_of_toNat_eq
  have hnum := congrArg BitVec.toNat h
  rw [maskA_toNat, wordA_toNat] at hnum
  rw [opField_toNat]
  simp at hnum; omega

theorem opField_nField_of_maskXY {w : Word} {op n : BitVec 4} (h : w &&& 0xF00F#16 = wordXY op 0 0 n) :
    opField w = op ∧ nField w = n := by
  have hnum := congrArg BitVec.toNat h
  have := n.isLt
  rw [maskXY_toNat, wordXY_toNat] at hnum
  constructor <;> apply BitVec.eq_of_toNat_eq
  · rw [opField_toNat]; simp at hnum; omega
  · rw [nField_toNat]; simp at hnum; omega

theorem wordA_of_mask {w : Word} {op : BitVec 4} (h : w &&& 0xF000#16 = wordA op 0) : wordA op (nnnField w) = w :=
  wordA_of_opField (opField_of_maskA h)

theorem wordXK_of_mask {w : Word} {op : BitVec 4} (h : w &&& 0xF000#16 = wordA op 0) :
    wordXK op (xField w) (kkField w) = w :=
  wordXK_of_opField (opField_of_maskA h)

theorem wordXY_of_mask {w : Word} {op n : BitVec 4} (h : w &&& 0xF00F#16 = wordXY op 0 0 n) :
    wordXY op (xField w) (yField w) n = w :=
  wordXY_of_opField_of_nField (opField_nField_of_maskXY h).1 (opField_nField_of_maskXY h).2

theorem eq_of_maskFull {w p : Word} (h : w &&& 0xFFFF#16 = p) : p = w := by
  rw [← h]; exact BitVec.and_allOnes

/-- A word that selects a row of the table is the word of an instruction of that row. -/
theorem exists_encode_of_selects {row : OpcodeRow} (hrow : row ∈ opcodeTable) {w : Word}
    (hsel : row.selects w = true) :
    ∃ i : Instr, i.rowName = row.name ∧ i.isExtension = row.extension ∧ encode i = w := by
  rw [OpcodeRow.selects_iff] at hsel
  simp only [opcodeTable, baseRows, extensionRows, List.cons_append, List.nil_append, List.mem_cons,
    List.not_mem_nil, or_false] at hrow
  rcases hrow with rfl | rfl | rfl | rfl | rfl | rfl | rfl | rfl | rfl | rfl | rfl | rfl | rfl | rfl | rfl | rfl |
    rfl | rfl
  · exact ⟨.cls, rfl, rfl, eq_of_maskFull hsel⟩
  · exact ⟨.ret, rfl, rfl, eq_of_maskFull hsel⟩
  · exact ⟨.jp _, rfl, rfl, wordA_of_mask hsel⟩
  · exact ⟨.call _, rfl, rfl, wordA_of_mask hsel⟩
  · exact ⟨.seImm _ _, rfl, rfl, wordXK_of_mask hsel⟩
  · exact ⟨.sneImm _ _, rfl, rfl, wordXK_of_mask hsel⟩
  · exact ⟨.seReg _ _, rfl, rfl, wordXY_of_mask hsel⟩
  · exact ⟨.ldImm _ _, rfl, rfl, wordXK_of_mask hsel⟩
  · exact ⟨.addImm _ _, rfl, rfl, wordXK_of_mask hsel⟩
  · exact ⟨.ldReg _ _, rfl, rfl, wordXY_of_mask hsel⟩
  · exact ⟨.orReg _ _, rfl, rfl, wordXY_of_mask hsel⟩
  · exact ⟨.andReg _ _, rfl, rfl, wordXY_of_mask hsel⟩
  · exact ⟨.xorReg _ _, rfl, rfl, wordXY_of_mask hsel⟩
  · exact ⟨.addReg _ _, rfl, rfl, wordXY_of_mask hsel⟩
  · exact ⟨.sub _ _, rfl, rfl, wordXY_of_mask hsel⟩
  · exact ⟨.shr _ _, rfl, rfl, wordXY_of_mask hsel⟩
  · exact ⟨.subn _ _, rfl, rfl, wordXY_of_mask hsel⟩
  · exact ⟨.shl _ _, rfl, rfl, wordXY_of_mask hsel⟩

/-- The word of an instruction selects the row that bears its name. -/
theorem encodedInTable (i : Instr) : Laws.EncodedInTable.Statement i := by
  cases i with
  | cls => exact Laws.EncodedInTable.cls
  | ret => exact Laws.EncodedInTable.ret
  | jp nnn => exact Laws.EncodedInTable.jp nnn
  | call nnn => exact Laws.EncodedInTable.call nnn
  | seImm x kk => exact Laws.EncodedInTable.seImm x kk
  | sneImm x kk => exact Laws.EncodedInTable.sneImm x kk
  | seReg x y => exact Laws.EncodedInTable.seReg x y
  | ldImm x kk => exact Laws.EncodedInTable.ldImm x kk
  | addImm x kk => exact Laws.EncodedInTable.addImm x kk
  | ldReg x y => exact Laws.EncodedInTable.ldReg x y
  | orReg x y => exact Laws.EncodedInTable.orReg x y
  | andReg x y => exact Laws.EncodedInTable.andReg x y
  | xorReg x y => exact Laws.EncodedInTable.xorReg x y
  | addReg x y => exact Laws.EncodedInTable.addReg x y
  | sub x y => exact Laws.EncodedInTable.sub x y
  | shr x y => exact Laws.EncodedInTable.shr x y
  | subn x y => exact Laws.EncodedInTable.subn x y
  | shl x y => exact Laws.EncodedInTable.shl x y

/-- A row is enabled exactly when its instructions are well-formed. -/
theorem enabled_eq_wellFormed {row : OpcodeRow} {i : Instr} (h : i.isExtension = row.extension) (aluExt : Bool) :
    row.enabled aluExt = i.wellFormed aluExt := by
  rw [OpcodeRow.enabled, Instr.wellFormed, h]

/-- Settles O34: decoding is the inverse of encoding, and the word of an instruction and its row select each other. -/
theorem decodeAgreesWithOpcodeTable : Obligations.DecodeAgreesWithOpcodeTable := by
  refine fun aluExt w => ⟨fun i hdec => ?_, fun row hrow hen hsel => ?_⟩
  · obtain ⟨rfl, hwf⟩ := encode_of_decode hdec
    obtain ⟨row, hrow, hname, hext, hsel⟩ := encodedInTable i
    exact ⟨row, hrow, hname, (enabled_eq_wellFormed hext.symm aluExt).trans hwf, hsel⟩
  · obtain ⟨i, hname, hext, hw⟩ := exists_encode_of_selects hrow hsel
    exact ⟨i, decode_eq_instr_iff.mpr ⟨hw, (enabled_eq_wellFormed hext aluExt).symm.trans hen⟩, hname⟩

/-! ## Disjointness -/

/-- Two rows that a word selects agree where both masks look. -/
theorem OpcodeRow.patterns_agree {r r' : OpcodeRow} {w : Word} (h : r.selects w = true) (h' : r'.selects w = true) :
    r.pattern &&& r'.mask = r'.pattern &&& r.mask := by
  rw [selects_iff] at h h'
  rw [← h, ← h', BitVec.and_assoc, BitVec.and_assoc, BitVec.and_comm r.mask]

/-- Settles O35: each two rows of the table differ in a bit at which both masks look. -/
theorem opcodeRowsArePairwiseDisjoint : Obligations.OpcodeRowsArePairwiseDisjoint := by
  have hdiffer : opcodeTable.Pairwise (fun r r' => r.pattern &&& r'.mask ≠ r'.pattern &&& r.mask) := by decide
  exact hdiffer.imp fun hne w ⟨h, h'⟩ => hne (OpcodeRow.patterns_agree h h')

/-! ## The unrecognised words -/

theorem selects_maskFull_iff (name : String) (p w : Word) (e : Bool) :
    OpcodeRow.selects ⟨name, 0xFFFF, p, e⟩ w = true ↔ w = p := by
  rw [OpcodeRow.selects_iff]
  exact ⟨fun h => (eq_of_maskFull h).symm, fun h => h ▸ BitVec.and_allOnes⟩

theorem selects_maskA_iff (name : String) (p w : Word) (e : Bool) :
    OpcodeRow.selects ⟨name, 0xF000, p, e⟩ w = true ↔ w.toNat / 4096 * 4096 = p.toNat := by
  rw [OpcodeRow.selects_iff, ← BitVec.toNat_inj, ← maskA_toNat w]; rfl

theorem selects_maskXY_iff (name : String) (p w : Word) (e : Bool) :
    OpcodeRow.selects ⟨name, 0xF00F, p, e⟩ w = true ↔ w.toNat / 4096 * 4096 + w.toNat % 16 = p.toNat := by
  rw [OpcodeRow.selects_iff, ← BitVec.toNat_inj, ← maskXY_toNat w]; rfl

/-- A word is unrecognised exactly when it selects no enabled row (R79). -/
theorem decode_eq_unrecognised_iff_no_row {aluExt : Bool} {w : Word} :
    decode aluExt w = .unrecognised w ↔ ∀ row ∈ opcodeTable, row.enabled aluExt = true → ¬ row.selects w = true := by
  obtain ⟨hrow_of, of_row⟩ := decodeAgreesWithOpcodeTable aluExt w
  rw [decode_eq_unrecognised_iff]
  refine ⟨fun h row hrow hen hsel => ?_, fun h i hdec => ?_⟩
  · obtain ⟨i, hi, _⟩ := of_row row hrow hen hsel
    exact h i hi
  · obtain ⟨row, hrow, _, hen, hsel⟩ := hrow_of i hdec
    exact h row hrow hen hsel

/-- Settles O36: the rows of the table as arithmetic, and the words outside all of them. -/
theorem unrecognisedWordsAreExactlyTheListed : Obligations.UnrecognisedWordsAreExactlyTheListed := by
  refine fun aluExt w => ⟨?_, fun _ => eq_of_decode_eq_unrecognised⟩
  have := w.isLt
  rw [decode_eq_unrecognised_iff_no_row]
  simp only [opcodeTable, baseRows, extensionRows, List.cons_append, List.nil_append, List.forall_mem_cons,
    List.not_mem_nil, OpcodeRow.enabled, selects_maskFull_iff, selects_maskA_iff, selects_maskXY_iff,
    ne_eq, ← BitVec.toNat_inj]
  cases aluExt <;> simp <;> omega

/-- Settles O38, for each of the two values of the parameter. -/
theorem wordsOfTheSpecDecodeAsListed : Obligations.WordsOfTheSpecDecodeAsListed :=
  ⟨fun aluExt => by cases aluExt <;> decide, by decide⟩

end Sys2Proof
end

section
/-! PROOFS. Everything a step can leave, as one relation on the states before and after (40_cycle.md R90 to R97): the
claims about a step's next state are case analyses of it. -/

namespace Sys2Proof.Machine

/-! ## What a step is about to do is determined -/

theorem State.Executes.unique {s : State} {i j : Instr} (hi : s.Executes i) (hj : s.Executes j) : i = j := by
  obtain ⟨_, w, hw, hd⟩ := hi
  obtain ⟨_, w', hw', hd'⟩ := hj
  obtain rfl : w = w' := Option.some.inj (hw.symm.trans hw')
  exact Decoded.instr.inj (hd.symm.trans hd')

theorem State.ExecutesUnrecognised.unique {s : State} {w w' : Word} (h : s.ExecutesUnrecognised w)
    (h' : s.ExecutesUnrecognised w') : w = w' :=
  Option.some.inj (h.2.1.symm.trans h'.2.1)

theorem State.Executes.not_unrecognised {s : State} {i : Instr} (hi : s.Executes i) (w : Word) :
    ¬ s.ExecutesUnrecognised w := by
  rintro ⟨_, hw, hd⟩
  obtain ⟨_, w', hw', hd'⟩ := hi
  obtain rfl : w = w' := Option.some.inj (hw.symm.trans hw')
  exact Decoded.noConfusion (hd.symm.trans hd')

theorem State.ExecutesUnrecognised.fault_eq_zero {s : State} {w : Word} (h : s.ExecutesUnrecognised w) :
    s.fault = 0 := h.1

theorem State.pc_le_of_fetch_eq_some {s : State} {w : Word} (h : s.fetch = some w) : s.pc.toNat ≤ 0x0FFE := by
  rcases s.fetch_cases with ⟨hpc, _⟩ | ⟨_, hnone⟩
  · exact hpc
  · simp [hnone] at h

theorem State.fetch_eq_none_iff (s : State) : s.fetch = none ↔ 0x0FFE < s.pc.toNat := by
  rcases s.fetch_cases with ⟨hpc, hsome⟩ | ⟨hpc, hnone⟩
  · simp [hsome]; omega
  · simp [hnone, hpc]

/-- Advancing a `PC` from which a word was fetched does not wrap (R93). -/
theorem advanced_pc_toNat {pc : Word} (h : pc.toNat ≤ 0x0FFE) : (pc + 2).toNat = pc.toNat + 2 := by
  rw [BitVec.toNat_add]; simp; omega

theorem State.Executes.pc_le {s : State} {i : Instr} (h : s.Executes i) : s.pc.toNat ≤ 0x0FFE := by
  obtain ⟨_, _, hw, _⟩ := h
  exact pc_le_of_fetch_eq_some hw

theorem State.ExecutesUnrecognised.pc_le {s : State} {w : Word} (h : s.ExecutesUnrecognised w) :
    s.pc.toNat ≤ 0x0FFE := pc_le_of_fetch_eq_some h.2.1

/-! ## The step in each situation -/

theorem step_of_halted {s : State} (h : s.fault ≠ 0) : step s = .next s.halt := if_neg h

theorem step_of_fetch_none {s : State} (h : s.fault = 0) (hf : s.fetch = none) :
    step s = .next (s.raise .fetchOutOfRange) := by
  rw [step, if_pos h, hf]

theorem State.ExecutesUnrecognised.step_eq {s : State} {w : Word} (h : s.ExecutesUnrecognised w) :
    step s = .next (s.fetched.countUnrecognised.emit (.unrecognized w s.pc)) := by
  obtain ⟨hrun, hw, hd⟩ := h
  simp only [step, if_pos hrun, hw, hd, execUnrecognised]

/-- What a step from a state can leave: one constructor per situation, with the instruction that the step executes. -/
inductive StepLeaves (s : State) : State → Prop
  | halted (h : s.fault ≠ 0) : StepLeaves s s.halt
  | fetchFault (hrun : s.fault = 0) (hpc : 0x0FFE < s.pc.toNat) : StepLeaves s (s.raise .fetchOutOfRange)
  | unrecognised {w : Word} (h : s.ExecutesUnrecognised w) :
      StepLeaves s (s.fetched.countUnrecognised.emit (.unrecognized w s.pc))
  | cls (h : s.Executes .cls) : StepLeaves s (s.fetched.emit .screenClear)
  | jp {nnn : Addr12} (h : s.Executes (.jp nnn)) : StepLeaves s (s.fetched.setPc (target nnn))
  | call {nnn : Addr12} (h : s.Executes (.call nnn)) (hsp : s.sp.toNat < 16)
      (hnext : (s.sp + 1).toNat = s.sp.toNat + 1) :
      StepLeaves s { s.fetched with
        stack := s.stack.set s.sp.toNat (s.pc + 2), sp := s.sp + 1, pc := target nnn }
  | callOverflow {nnn : Addr12} (h : s.Executes (.call nnn)) (hsp : s.sp.toNat = 16) :
      StepLeaves s (s.fetched.raise .stackOverflow)
  | ret (h : s.Executes .ret) (hpos : 0 < s.sp.toNat) (hsp : s.sp.toNat - 1 < 16)
      (hnext : (s.sp - 1).toNat = s.sp.toNat - 1) :
      StepLeaves s { s.fetched with sp := s.sp - 1, pc := s.stack[s.sp.toNat - 1] }
  | retUnderflow (h : s.Executes .ret) (hsp : s.sp.toNat = 0) : StepLeaves s (s.fetched.raise .stackUnderflow)
  | skip {i : Instr} (h : s.Executes i) {x y : Reg} {kk : Byte}
      (hi : i = .seImm x kk ∨ i = .sneImm x kk ∨ i = .seReg x y) (c : Bool) : StepLeaves s (s.fetched.skipIf c)
  | writeReg {i : Instr} (h : s.Executes i) {x y : Reg} {kk : Byte}
      (hi : i = .ldImm x kk ∨ i = .addImm x kk ∨ i = .ldReg x y ∨ i = .orReg x y ∨ i = .andReg x y ∨ i = .xorReg x y)
      (b : Byte) : StepLeaves s (s.fetched.setReg x b)
  | writeFlag {i : Instr} (h : s.Executes i) {x y : Reg}
      (hi : i = .addReg x y ∨ i = .sub x y ∨ i = .shr x y ∨ i = .subn x y ∨ i = .shl x y) (c : Bool) (b : Byte) :
      StepLeaves s (s.fetched.writeFlagThenResult x c b)

/-- The part of `StepLeaves` that is about an instruction: what `exec` answers after the fetch. -/
theorem stepLeaves_of_exec {s t : State} {i : Instr} (h : s.Executes i) (he : exec i s.fetched = .next t) :
    StepLeaves s t := by
  rcases exec_cases i s.fetched with ⟨rfl, e⟩ | ⟨nnn, rfl, e⟩ | ⟨nnn, rfl, e⟩ | ⟨rfl, e⟩ | ⟨x, y, kk, c, hi, e⟩ |
    ⟨x, y, kk, b, hi, e⟩ | ⟨x, y, c, b, hi, e⟩
  · cases e.symm.trans he; exact .cls h
  · cases e.symm.trans he; exact .jp h
  · rcases execCall_cases nnn s.fetched with ⟨hsp, e'⟩ | ⟨hsp, e', hnext⟩ | ⟨_, e'⟩
    · cases (e.trans e').symm.trans he; exact .callOverflow h hsp
    · cases (e.trans e').symm.trans he; exact .call h hsp hnext
    · cases (e.trans e').symm.trans he
  · rcases execRet_cases s.fetched with ⟨hsp, e'⟩ | ⟨hsp, hpos, e', hnext⟩ | ⟨_, e'⟩
    · cases (e.trans e').symm.trans he; exact .retUnderflow h hsp
    · cases (e.trans e').symm.trans he; exact .ret h hpos hsp hnext
    · cases (e.trans e').symm.trans he
  · cases e.symm.trans he; exact .skip h hi c
  · cases e.symm.trans he; exact .writeReg h hi b
  · cases e.symm.trans he; exact .writeFlag h hi c b

/-- Every next state a step answers is one of `StepLeaves`. -/
theorem stepLeaves_of_step {s t : State} (h : step s = .next t) : StepLeaves s t := by
  rcases step_cases s with ⟨hhalt, e⟩ | ⟨hrun, hnone, e⟩ | ⟨w, u, hrun, hw, hd, e⟩ | ⟨w, i, hrun, hw, hd, e⟩
  · cases e.symm.trans h; exact .halted hhalt
  · cases e.symm.trans h; exact .fetchFault hrun (s.fetch_eq_none_iff.mp hnone)
  · obtain rfl := eq_of_decode_eq_unrecognised hd
    cases e.symm.trans h; exact .unrecognised ⟨hrun, hw, hd⟩
  · exact stepLeaves_of_exec ⟨hrun, w, hw, hd⟩ (e.symm.trans h)

end Sys2Proof.Machine
end

section
/-! PROOFS. The machine invariant (10_state.md R25, R26, R28; 42_control_flow.md R105): `init` establishes it, every step
and every other request of the host keeps it, and from a depth of 0 to 16 a step always answers a next state. -/

namespace Sys2Proof.Machine

/-! ## Progress -/

theorem exec_next_of_depthOk (i : Instr) {s : State} (h : s.DepthOk) : ∃ t, exec i s = .next t := by
  have h16 : s.sp.toNat ≤ 16 := h
  rcases exec_cases i s with ⟨_, e⟩ | ⟨_, _, e⟩ | ⟨nnn, _, e⟩ | ⟨_, e⟩ | ⟨_, _, _, _, _, e⟩ | ⟨_, _, _, _, _, e⟩ |
    ⟨_, _, _, _, _, e⟩
  case inr.inr.inl =>
    rcases execCall_cases nnn s with ⟨_, e'⟩ | ⟨_, e', _⟩ | ⟨hgt, _⟩
    · exact ⟨_, e.trans e'⟩
    · exact ⟨_, e.trans e'⟩
    · omega
  case inr.inr.inr.inl =>
    rcases execRet_cases s with ⟨_, e'⟩ | ⟨_, _, e', _⟩ | ⟨hgt, _⟩
    · exact ⟨_, e.trans e'⟩
    · exact ⟨_, e.trans e'⟩
    · omega
  all_goals exact ⟨_, e⟩

theorem step_next_of_depthOk {s : State} (h : s.DepthOk) : ∃ t, step s = .next t := by
  rcases step_cases s with ⟨_, e⟩ | ⟨_, _, e⟩ | ⟨_, _, _, _, _, e⟩ | ⟨_, i, _, _, _, e⟩
  · exact ⟨_, e⟩
  · exact ⟨_, e⟩
  · exact ⟨_, e⟩
  · obtain ⟨t, he⟩ := exec_next_of_depthOk i (s := s.fetched) h
    exact ⟨t, e.trans he⟩

/-- Only a `CALL` below 16 and a `RET` above 0 move the depth. -/
theorem StepLeaves.depthOk {s t : State} (h : StepLeaves s t) (hs : s.DepthOk) : t.DepthOk := by
  have h16 : s.sp.toNat ≤ 16 := hs
  cases h with
  | call _ hsp hnext => exact hnext.trans_le hsp
  | ret _ _ _ hnext => exact hnext.trans_le (by omega)
  | _ => simpa using hs

/-- Settles O11: `exec` stops in no state of such a depth, and the step keeps the depth in its bounds. -/
theorem stepAlwaysAnswersNextState : Obligations.StepAlwaysAnswersNextState := fun _ hs =>
  have ⟨t, ht⟩ := step_next_of_depthOk hs
  ⟨t, ht, (stepLeaves_of_step ht).depthOk hs⟩

/-! ## The invariant -/

theorem State.Inv.setPc {s : State} (hs : s.Inv) {t : Word} (ht : t.toNat ≤ 0x1002) : (s.setPc t).Inv := by
  obtain ⟨hwf, hdepth, _, hentries, hzero⟩ := hs
  exact ⟨hwf, hdepth, ht, hentries, hzero⟩

/-- The state in which an instruction executes meets the invariant, with room for a skip (R25). -/
theorem State.Inv.fetched {s : State} (hs : s.Inv) (hpc : s.pc.toNat ≤ 0x0FFE) : s.fetched.Inv :=
  hs.setPc (t := s.pc + 2) (by rw [advanced_pc_toNat hpc]; omega)

theorem target_le (nnn : Addr12) : (target nnn).toNat ≤ 0x1002 := by
  have := nnn.isLt
  rw [State.target_toNat]; omega

/-- The step keeps the invariant: the four bounds of `PC` are those of a fault, of an advance by two or four from
0x0FFE at most, of a 12-bit target and of a stack entry, and the one entry written is an advanced `PC`. -/
theorem StepLeaves.inv {s t : State} (h : StepLeaves s t) (hs : s.Inv) : t.Inv := by
  have ⟨hwf, hdepth, hpc, hentries, hzero⟩ := hs
  cases h with
  | halted | fetchFault => exact hs
  | unrecognised h | cls h | callOverflow h | retUnderflow h | writeReg h | writeFlag h => exact hs.fetched h.pc_le
  | @jp nnn h => exact (hs.fetched h.pc_le).setPc (target_le nnn)
  | skip h _ c =>
    rw [State.skipIf_eq]
    refine (hs.fetched h.pc_le).setPc ?_
    have hle := h.pc_le
    cases c <;> simp [BitVec.toNat_add] <;> omega
  | @call nnn h hsp hnext =>
    have hle := h.pc_le
    refine ⟨hwf, hnext.trans_le hsp, target_le nnn, fun k hk => ?_, hzero⟩
    by_cases hkd : k.val = s.sp.toNat
    · simp [hkd]; omega
    · have hlt : k.val < s.sp.toNat := by
        have : k.val < (s.sp + 1).toNat := hk
        omega
      simpa [Vector.getElem_set_ne, Ne.symm hkd] using hentries k hlt
  | ret h hpos hsp hnext =>
    have htop := hentries ⟨s.sp.toNat - 1, hsp⟩ (show s.sp.toNat - 1 < s.sp.toNat by omega)
    refine ⟨hwf, hnext.trans_le (by omega), htop.2.trans (by omega), fun k hk => hentries k ?_, hzero⟩
    have : k.val < (s.sp - 1).toNat := hk
    omega

/-- Settles O9, by the cases of what a step can leave. -/
theorem stepKeepsTheMachineInvariant : Obligations.StepKeepsTheMachineInvariant := fun _ _ hs h =>
  (stepLeaves_of_step h).inv hs

/-! ## Initialisation and the requests of the host -/

theorem State.init_inv (c : Config) : (State.init c).Inv :=
  ⟨Memory.wf_nil c.glyphTable, Nat.zero_le _, Nat.zero_le _, fun k hk => absurd hk (Nat.not_lt_zero k.val), rfl⟩

/-- Settles O8: the reset state is the state that `init` leaves on the standard configuration. -/
theorem resetMeetsTheMachineInvariant : Obligations.ResetMeetsTheMachineInvariant := State.init_inv Config.standard

/-- An accepted `load` writes memory, which stays canonical, and `PC`. -/
theorem State.Inv.of_load {s t : State} {image : List Byte} (hs : s.Inv) (h : s.load image = .ok t) : t.Inv := by
  have hwf := Memory.wf_load hs.1 h
  obtain ⟨_, hdepth, _, hentries, hzero⟩ := hs
  rcases s.load_cases image with ⟨_, e⟩ | ⟨_, e⟩
  · cases e.symm.trans h
    exact ⟨hwf, hdepth, (by decide : (0x0200 : Word).toNat ≤ 0x1002), hentries, hzero⟩
  · cases e.symm.trans h

theorem serve_keeps_inv {r : Request} {s t : State} (hs : s.Inv) (h : serve r s = .next t) : t.Inv := by
  cases r with
  | init => cases h; exact State.init_inv s.cfg
  | load image =>
    rcases hload : s.load image with u | _
    · cases (serve_load_ok hload).symm.trans h; exact hs.of_load hload
    · cases (serve_load_refused hload).symm.trans h; exact hs
  | step => exact (stepLeaves_of_step h).inv hs
  | writeDT | writeST | readState => cases h; exact hs

/-- Settles O10: `init`, every request, and by induction on the requests every reachable state. -/
theorem reachableStatesMeetTheMachineInvariant : Obligations.ReachableStatesMeetTheMachineInvariant := by
  refine ⟨State.init_inv, fun _ _ _ hs h => serve_keeps_inv hs h, fun s hs => ?_⟩
  induction hs with
  | init c => exact State.init_inv c
  | request r _ h ih => exact serve_keeps_inv ih h

end Sys2Proof.Machine
end

section
/-! PROOFS. What a step can and cannot change: the outcome, `FAULT`, `UNREC_CNT`, the `V` registers, `PC` and the rest,
each a case analysis of `StepLeaves` (40_cycle.md R96 to R98, 10_state.md sections 2, 3 and 7). -/

namespace Sys2Proof.Machine

/-! ## The frame of every step -/

theorem StepLeaves.sameStoreButCounter {s t : State} (h : StepLeaves s t) :
    t.i = s.i ∧ t.dt = s.dt ∧ t.st = s.st ∧ SameMemory s t ∧ t.cfg = s.cfg := by
  cases h with
  | skip => simp [SameMemory]
  | _ => exact ⟨rfl, rfl, rfl, fun _ => rfl, rfl⟩

/-- Settles O22: no operation that a step is made of writes one of these. -/
theorem noStepWritesIndexTimersOrMemory : Obligations.NoStepWritesIndexTimersOrMemory := fun _ _ h =>
  (stepLeaves_of_step h).sameStoreButCounter

/-! ## The counter -/

/-- Settles O21: the counter is touched in the unrecognised case alone. -/
theorem counterCountsExactlyUnrecognisedWords : Obligations.CounterCountsExactlyUnrecognisedWords := by
  intro s t hstep
  cases stepLeaves_of_step hstep with
  | unrecognised hu => exact ⟨fun _ => State.countUp_toNat s.unrecCnt, fun hnone => absurd hu (hnone _)⟩
  | halted hf => exact ⟨fun ⟨_, hu⟩ => absurd hu.fault_eq_zero hf, fun _ => rfl⟩
  | fetchFault _ hpc => exact ⟨fun ⟨_, hu⟩ => absurd hu.pc_le (by omega), fun _ => rfl⟩
  | skip h => exact ⟨fun ⟨w, hu⟩ => absurd hu (h.not_unrecognised w), fun _ => by simp⟩
  | cls h | jp h | call h | callOverflow h | ret h | retUnderflow h | writeReg h | writeFlag h =>
    exact ⟨fun ⟨w, hu⟩ => absurd hu (h.not_unrecognised w), fun _ => rfl⟩

/-- A step never lowers the counter (R33). -/
theorem StepLeaves.unrecCnt_le {s t : State} (h : StepLeaves s t) : s.unrecCnt.toNat ≤ t.unrecCnt.toNat := by
  cases h with
  | unrecognised =>
    refine le_trans ?_ (State.countUp_toNat s.unrecCnt).ge
    have := s.unrecCnt.isLt
    omega
  | skip => simp
  | _ => exact le_rfl

/-! ## Faults and the outcome -/

/-- Settles O18: a running core latches a code in three cases, and each of them is `raise` on the state before or on the
state with `PC` advanced. -/
theorem faultsAreExactlyTheThreeAndPrecise : Obligations.FaultsAreExactlyTheThreeAndPrecise := by
  intro s t hrun hstep hfault
  cases stepLeaves_of_step hstep with
  | halted hf => exact absurd hrun hf
  | fetchFault _ hpc =>
    exact ⟨.inr (.inr ⟨rfl, rfl, hpc, rfl⟩), sameRegs_raise s _, sameStack_raise s _, sameStore_raise s _⟩
  | callOverflow h hsp =>
    exact ⟨.inl ⟨rfl, rfl, ⟨_, h⟩, s.sp_eq_sixteen_iff.mpr hsp, rfl⟩, fun _ => rfl, ⟨rfl, rfl⟩,
      sameStore_raise s.fetched _⟩
  | retUnderflow h hsp =>
    exact ⟨.inr (.inl ⟨rfl, rfl, h, s.sp_eq_zero_iff.mpr hsp, rfl⟩), fun _ => rfl, ⟨rfl, rfl⟩,
      sameStore_raise s.fetched _⟩
  | skip => exact absurd hrun (by simpa using hfault)
  | unrecognised | cls | jp | call | ret | writeReg | writeFlag => exact absurd hrun hfault

/-- Settles O19, by the cases of what a step can leave. -/
theorem outcomeAgreesWithFaultRegister : Obligations.OutcomeAgreesWithFaultRegister := by
  intro s t hstep
  cases stepLeaves_of_step hstep with
  | halted hf => exact .inr (.inr ⟨rfl, hf, rfl⟩)
  | fetchFault hrun => exact .inr (.inl ⟨_, rfl, hrun, rfl⟩)
  | callOverflow h | retUnderflow h => exact .inr (.inl ⟨_, rfl, h.fault_eq_zero, rfl⟩)
  | unrecognised h | cls h => exact .inl ⟨[_], rfl, le_rfl, h.fault_eq_zero, h.fault_eq_zero⟩
  | skip h => exact .inl ⟨[], by simp, by simp, h.fault_eq_zero, by simp [h.fault_eq_zero]⟩
  | jp h | call h | ret h | writeReg h | writeFlag h =>
    exact .inl ⟨[], rfl, Nat.zero_le 1, h.fault_eq_zero, h.fault_eq_zero⟩

/-! ## Events -/

/-- A list of events names its sources in a state: `ScreenClear` stands in it exactly when `CLS` executes next, and
`Unrecognized(w, a)` exactly when `w` is the unrecognised word executed next and `a` is `PC`. -/
def NamesItsSources (s : State) (events : List Event) : Prop :=
  (.screenClear ∈ events ↔ s.Executes .cls) ∧
    ∀ w a, .unrecognized w a ∈ events ↔ s.ExecutesUnrecognised w ∧ a = s.pc

theorem namesItsSources_cls {s : State} (h : s.Executes .cls) : NamesItsSources s [.screenClear] := by
  refine ⟨by simp [h], fun w a => ?_⟩
  simp [h.not_unrecognised w]

theorem namesItsSources_unrecognised {s : State} {w : Word} (h : s.ExecutesUnrecognised w) :
    NamesItsSources s [.unrecognized w s.pc] := by
  refine ⟨?_, fun w' a => ?_⟩
  · have hcls : ¬ s.Executes .cls := fun hc => hc.not_unrecognised w h
    simp [hcls]
  · simp only [List.mem_singleton, Event.unrecognized.injEq]
    exact ⟨fun ⟨hw, ha⟩ => ⟨hw ▸ h, ha⟩, fun ⟨hw, ha⟩ => ⟨hw.unique h, ha⟩⟩

theorem namesItsSources_nil {s : State} {i : Instr} (h : s.Executes i) (hi : i ≠ .cls) : NamesItsSources s [] := by
  have hcls : ¬ s.Executes .cls := fun hc => hi (h.unique hc)
  refine ⟨by simp [hcls], fun w a => ?_⟩
  simp [h.not_unrecognised w]

theorem StepLeaves.namesItsSources {s t : State} {events : List Event} (h : StepLeaves s t)
    (hok : t.outcome = .ok events) : NamesItsSources s events := by
  cases h with
  | halted | fetchFault | callOverflow | retUnderflow => cases hok
  | unrecognised h => cases hok; exact namesItsSources_unrecognised h
  | cls h => cases hok; exact namesItsSources_cls h
  | jp h | call h | ret h => cases hok; exact namesItsSources_nil h nofun
  | skip h hi =>
    rw [State.skipIf_outcome] at hok
    cases hok
    exact namesItsSources_nil h (by rcases hi with rfl | rfl | rfl <;> nofun)
  | writeReg h hi =>
    cases hok
    exact namesItsSources_nil h (by rcases hi with rfl | rfl | rfl | rfl | rfl | rfl <;> nofun)
  | writeFlag h hi =>
    cases hok
    exact namesItsSources_nil h (by rcases hi with rfl | rfl | rfl | rfl | rfl <;> nofun)

/-- Settles O20: an `ok` step emits the one event of its case, or none. -/
theorem eventsNameTheirSource : Obligations.EventsNameTheirSource := fun _ _ _ h hok =>
  (stepLeaves_of_step h).namesItsSources hok

/-! ## The `V` registers and `PC` -/

/-- Settles O24: two kinds of step write a `V` register, the plain writes that of `x` alone and the flag writers also
`V[15]`. -/
theorem registersChangeOnlyByTheirInstructions : Obligations.RegistersChangeOnlyByTheirInstructions := by
  intro s t r hstep hne
  cases stepLeaves_of_step hstep with
  | @writeReg i h x y kk hi b =>
    obtain rfl : r = x := by
      by_contra hrx
      exact hne (s.fetched.setReg_reg_ne b hrx)
    rcases hi with hi | hi | hi
    · exact ⟨i, h, .inl ⟨kk, .inl hi⟩⟩
    · exact ⟨i, h, .inl ⟨kk, .inr hi⟩⟩
    · exact ⟨i, h, .inr (.inl ⟨y, hi⟩)⟩
  | @writeFlag i h x y hi c b =>
    refine ⟨i, h, .inr (.inr ⟨x, y, hi, ?_⟩)⟩
    by_contra hr
    obtain ⟨hx, h15⟩ := not_or.mp hr
    exact hne (s.fetched.writeFlagThenResult_reg_other c b (Ne.symm hx) h15)
  | skip => exact absurd (State.skipIf_reg _ _ r) hne
  | halted | fetchFault | unrecognised | cls | jp | call | callOverflow | ret | retUnderflow => exact absurd rfl hne

/-- Settles O25, by the cases of what a step that fetches can leave. -/
theorem pcLeavesSequenceOnlyByControlTransfer : Obligations.PcLeavesSequenceOnlyByControlTransfer := by
  intro s t hrun hpc hstep
  cases stepLeaves_of_step hstep with
  | halted hf => exact absurd hrun hf
  | fetchFault _ hgt => exact absurd hgt (Nat.not_lt.mpr hpc)
  | unrecognised | cls | callOverflow | retUnderflow | writeReg | writeFlag => exact .inl rfl
  | @skip i h x y kk hi c =>
    cases c
    · exact .inl rfl
    · refine .inr (.inl ⟨BitVec.add_assoc s.pc 2 2, x, y, kk, ?_⟩)
      rcases hi with rfl | rfl | rfl
      · exact .inl h
      · exact .inr (.inl h)
      · exact .inr (.inr h)
  | @jp nnn h => exact .inr (.inr (.inl ⟨nnn, .inl h, State.target_toNat nnn⟩))
  | @call nnn h => exact .inr (.inr (.inl ⟨nnn, .inr h, State.target_toNat nnn⟩))
  | ret h hpos hsp => exact .inr (.inr (.inr ⟨h, hpos, Vector.getElem?_eq_getElem hsp⟩))

/-! ## A finished program -/

theorem core_run_succ_of_step {s t : State} (n : Nat) (h : step s = .next t) :
    Host.Core.run core (n + 1) s = Host.Core.run core n t := by
  have hcore : core.step s = .next t := h
  simp only [Host.Core.run, hcore]

/-- At a jump to itself the step changes nothing but the outcome (R187). -/
theorem State.Finished.step_eq {s : State} (h : s.Finished) : step s = .next { s with outcome := .ok [] } := by
  obtain ⟨nnn, hexec, htarget⟩ := h
  rw [hexec.step_eq]
  exact congrArg (fun p => Host.Outcome.next { s with pc := p, outcome := .ok [] }) htarget

/-- Settles O26, by induction on the number of further steps: the state after a step is finished too. -/
theorem finishedProgramStaysAsItIs : Obligations.FinishedProgramStaysAsItIs := by
  intro s n h
  induction n generalizing s with
  | zero => exact core_run_succ_of_step 0 h.step_eq
  | succ n ih => exact (core_run_succ_of_step (n + 1) h.step_eq).trans (ih { s with outcome := .ok [] } h)

end Sys2Proof.Machine
end

section
/-! PROOFS. What a step cannot observe (10_state.md R26, R27, R31; 20_memory.md R57; 00_scope.md R9): `I`, the timers,
memory beside the two bytes at `PC`, `ALU_EXT` beside the extension forms, and dead stack entries. -/

namespace Sys2Proof.Machine

/-! ## One step from two states -/

/-- When the core is running, or halted, in both of two states and they fetch and decode alike, their steps run side by
side: a relation that every way to end a step respects holds of the two next states. -/
theorem step_related {R : State → State → Prop} (s s' : State) {t : State} (hfault : s'.fault = s.fault)
    (hfetch : s'.fetch = s.fetch)
    (hdecode : ∀ w, s.fetch = some w → decode s'.cfg.aluExt w = decode s.cfg.aluExt w)
    (hhalt : R s.halt s'.halt) (hraise : R (s.raise .fetchOutOfRange) (s'.raise .fetchOutOfRange))
    (hunrec : ∀ w, R (s.fetched.countUnrecognised.emit (.unrecognized w s.pc))
      (s'.fetched.countUnrecognised.emit (.unrecognized w s'.pc)))
    (hexec : ∀ i t, exec i s.fetched = .next t → ∃ t', exec i s'.fetched = .next t' ∧ R t t')
    (hstep : step s = .next t) : ∃ t', step s' = .next t' ∧ R t t' := by
  rcases step_cases s with ⟨hhalted, e⟩ | ⟨hrun, hnone, e⟩ | ⟨w, u, hrun, hw, hd, e⟩ | ⟨w, i, hrun, hw, hd, e⟩
  · cases e.symm.trans hstep
    exact ⟨_, step_of_halted (hfault ▸ hhalted), hhalt⟩
  · cases e.symm.trans hstep
    exact ⟨_, step_of_fetch_none (hfault.trans hrun) (hfetch.trans hnone), hraise⟩
  · cases e.symm.trans hstep
    obtain rfl := eq_of_decode_eq_unrecognised hd
    have h' : s'.ExecutesUnrecognised u := ⟨hfault.trans hrun, hfetch.trans hw, (hdecode u hw).trans hd⟩
    exact ⟨_, h'.step_eq, hunrec u⟩
  · obtain ⟨t', he', hR⟩ := hexec i t (e.symm.trans hstep)
    have h' : s'.Executes i := ⟨hfault.trans hrun, w, hfetch.trans hw, (hdecode w hw).trans hd⟩
    exact ⟨t', h'.step_eq.trans he', hR⟩

/-! ## Instructions that work on the `V` registers, `PC` and the events alone -/

theorem call_or_ret_or_neither (i : Instr) :
    (∃ nnn, i = .call nnn) ∨ i = .ret ∨ ((∀ nnn, i ≠ .call nnn) ∧ i ≠ .ret) := by
  cases i with
  | call nnn => exact .inl ⟨nnn, rfl⟩
  | ret => exact .inr (.inl rfl)
  | _ => exact .inr (.inr ⟨fun _ => nofun, nofun⟩)

/-- The `V` registers, `PC` and the outcome of `s` in the place of those of `b`. -/
def State.graft (s b : State) : State := { b with v := s.v, pc := s.pc, outcome := s.outcome }

theorem State.graft_skipIf (s b : State) (c : Bool) : (s.skipIf c).graft b = (s.graft b).skipIf c := by
  cases c <;> rfl

/-- An instruction that is neither `CALL` nor `RET` reads and writes nothing but the `V` registers, `PC` and the
events: over any other rest of the state it does the same. -/
theorem exec_graft {i : Instr} {s t : State} (b : State) (hcall : ∀ nnn, i ≠ .call nnn) (hret : i ≠ .ret)
    (h : exec i s = .next t) : exec i (s.graft b) = .next (t.graft b) := by
  cases i with
  | call nnn => exact absurd rfl (hcall nnn)
  | ret => exact absurd rfl hret
  | seImm | sneImm | seReg =>
    cases h
    exact congrArg Host.Outcome.next (State.graft_skipIf s b _).symm
  | _ => cases h; rfl

/-- Such an instruction leaves the rest of its own state as it is. -/
theorem graft_eq_of_exec {i : Instr} {s t : State} (hcall : ∀ nnn, i ≠ .call nnn) (hret : i ≠ .ret)
    (h : exec i s = .next t) : t.graft s = t :=
  Host.Outcome.next.inj ((exec_graft s hcall hret h).symm.trans h)

/-! ## Other values of `I`, the timers, memory and the parameters -/

/-- The state with the fields of `b` that no instruction reads or writes. -/
def State.withPassive (s b : State) : State :=
  { s with cfg := b.cfg, i := b.i, dt := b.dt, st := b.st, mem := b.mem }

theorem exec_call_withPassive {nnn : Addr12} {s t : State} (b : State) (h : exec (.call nnn) s = .next t) :
    exec (.call nnn) (s.withPassive b) = .next (t.withPassive b) := by
  rcases execCall_cases nnn s with ⟨hsp, e⟩ | ⟨hsp, e, _⟩ | ⟨_, e⟩
  · cases e.symm.trans h
    exact exec_call_of_sp_eq_sixteen (s := s.withPassive b) (s.sp_eq_sixteen_iff.mpr hsp) nnn
  · cases e.symm.trans h
    exact exec_call_of_sp_lt_sixteen (s := s.withPassive b) hsp nnn
  · cases e.symm.trans h

theorem exec_ret_withPassive {s t : State} (b : State) (h : exec .ret s = .next t) :
    exec .ret (s.withPassive b) = .next (t.withPassive b) := by
  rcases execRet_cases s with ⟨hsp, e⟩ | ⟨hsp, hpos, e, _⟩ | ⟨_, e⟩
  · cases e.symm.trans h
    exact exec_ret_of_sp_eq_zero (s := s.withPassive b) (s.sp_eq_zero_iff.mpr hsp)
  · cases e.symm.trans h
    exact exec_ret_of_sp_pos (s := s.withPassive b) hpos (show s.sp.toNat ≤ 16 by omega)
  · cases e.symm.trans h

theorem exec_withPassive {i : Instr} {s t : State} (b : State) (h : exec i s = .next t) :
    exec i (s.withPassive b) = .next (t.withPassive b) := by
  rcases call_or_ret_or_neither i with ⟨nnn, rfl⟩ | rfl | ⟨hcall, hret⟩
  · exact exec_call_withPassive b h
  · exact exec_ret_withPassive b h
  · rw [← graft_eq_of_exec hcall hret h]
    exact exec_graft (t := t) (s.withPassive b) hcall hret h

/-- With other passive fields that fetch and decode the same word, a step does the same. -/
theorem step_withPassive {s t : State} (b : State) (hfetch : (s.withPassive b).fetch = s.fetch)
    (hdecode : ∀ w, s.fetch = some w → decode b.cfg.aluExt w = decode s.cfg.aluExt w) (h : step s = .next t) :
    step (s.withPassive b) = .next (t.withPassive b) := by
  obtain ⟨_, hstep, rfl⟩ := step_related (R := fun t t' => t' = t.withPassive b) s (s.withPassive b) rfl
    hfetch hdecode rfl rfl (fun _ => rfl) (fun i t he => ⟨_, exec_withPassive (s := s.fetched) b he, rfl⟩) h
  exact hstep

/-- A step keeps its own passive fields. -/
theorem withPassive_eq_of_step {s t : State} (h : step s = .next t) : t.withPassive s = t :=
  Host.Outcome.next.inj ((step_withPassive s rfl (fun _ _ => rfl) h).symm.trans h)

/-- Settles O27: `I` and the timers are passive, and the fetch reads neither. -/
theorem timersAndIndexAreUnobservable : Obligations.TimersAndIndexAreUnobservable := by
  intro s t i dt st h
  rw [← withPassive_eq_of_step h]
  exact step_withPassive (t := t) { s with i := i, dt := dt, st := st } rfl (fun _ _ => rfl) h

theorem fetch_congr {s s' : State} (hfirst : s'.memRead s'.pc.toNat = s.memRead s.pc.toNat)
    (hsecond : s'.memRead (s'.pc.toNat + 1) = s.memRead (s.pc.toNat + 1)) : s'.fetch = s.fetch := by
  rw [State.fetch, State.fetch, hfirst, hsecond]

/-- Settles O28: memory is passive but for the fetch, which reads the two bytes at `PC`. -/
theorem stepReadsMemoryOnlyAtPc : Obligations.StepReadsMemoryOnlyAtPc := by
  intro s t m hfirst hsecond h
  rw [← withPassive_eq_of_step h]
  exact step_withPassive (t := t) { s with mem := m } (fetch_congr hfirst hsecond) (fun _ _ => rfl) h

/-! ## The parameter of the extension -/

theorem mem_extensionRows_of_extension {row : OpcodeRow} (hrow : row ∈ opcodeTable) (hext : row.extension = true) :
    row ∈ extensionRows := by
  have hbase : ∀ r ∈ baseRows, r.extension = false := by decide
  rcases List.mem_append.mp hrow with h | h
  · simp [hbase row h] at hext
  · exact h

theorem isExtension_eq_false_of_no_row {i : Instr} (hno : ∀ row ∈ extensionRows, row.selects (encode i) = false) :
    i.isExtension = false := by
  obtain ⟨row, hrow, _, hext, hsel⟩ := encodedInTable i
  rw [← hext, ← Bool.not_eq_true]
  intro htrue
  simp [hno row (mem_extensionRows_of_extension hrow htrue)] at hsel

theorem decode_eq_instr_of_not_extension {w : Word} (hno : ∀ row ∈ extensionRows, row.selects w = false)
    {aluExt : Bool} {i : Instr} (h : decode aluExt w = .instr i) (aluExt' : Bool) : decode aluExt' w = .instr i := by
  obtain ⟨rfl, _⟩ := encode_of_decode h
  exact decode_encode (by simp [Instr.wellFormed, isExtension_eq_false_of_no_row hno])

/-- A word of no extension row decodes alike for both values of `ALU_EXT` (R9). -/
theorem decode_eq_of_not_extension {w : Word} (hno : ∀ row ∈ extensionRows, row.selects w = false)
    (aluExt aluExt' : Bool) : decode aluExt' w = decode aluExt w := by
  rcases h : decode aluExt w with i | u
  · exact decode_eq_instr_of_not_extension hno h aluExt'
  · obtain rfl := eq_of_decode_eq_unrecognised h
    refine decode_eq_unrecognised_iff.mpr fun i hi => ?_
    cases h.symm.trans (decode_eq_instr_of_not_extension hno hi aluExt)

/-- Settles O29: the parameters are passive but for the decoder, which consults them for the extension rows alone. -/
theorem extensionParameterMattersToItsFormsOnly : Obligations.ExtensionParameterMattersToItsFormsOnly := by
  intro s t aluExt hno h
  rw [← withPassive_eq_of_step h]
  exact step_withPassive (t := t) { s with cfg := { s.cfg with aluExt := aluExt } } rfl
    (fun w hw => decode_eq_of_not_extension (hno w hw) _ _) h

/-! ## Dead stack entries -/

theorem sameButDeadEntries_iff (s s' : State) : SameButDeadEntries s s' ↔ ∃ stack : Vector Word 16,
    s' = { s with stack := stack } ∧ ∀ k : Fin 16, k.val < s.sp.toNat → stack[k.val] = s.stack[k.val] := by
  refine ⟨fun ⟨hrest, hlive⟩ => ⟨s'.stack, hrest, hlive⟩, ?_⟩
  rintro ⟨stack, rfl, hlive⟩
  exact ⟨rfl, hlive⟩

theorem exec_call_sameButDeadEntries {nnn : Addr12} {s s' t : State} (hs : SameButDeadEntries s s')
    (h : exec (.call nnn) s = .next t) : ∃ t', exec (.call nnn) s' = .next t' ∧ SameButDeadEntries t t' := by
  obtain ⟨stack, rfl, hlive⟩ := (sameButDeadEntries_iff _ _).mp hs
  rcases execCall_cases nnn s with ⟨hsp, e⟩ | ⟨hsp, e, hnext⟩ | ⟨_, e⟩
  · cases e.symm.trans h
    exact ⟨_, exec_call_of_sp_eq_sixteen (s := { s with stack := stack }) (s.sp_eq_sixteen_iff.mpr hsp) nnn,
      rfl, hlive⟩
  · cases e.symm.trans h
    refine ⟨_, exec_call_of_sp_lt_sixteen (s := { s with stack := stack }) hsp nnn, rfl, fun k hk => ?_⟩
    have hk' : k.val < (s.sp + 1).toNat := hk
    by_cases hkd : k.val = s.sp.toNat
    · simp [hkd]
    · simpa [Vector.getElem_set_ne, Ne.symm hkd] using hlive k (by omega)
  · cases e.symm.trans h

theorem exec_ret_sameButDeadEntries {s s' t : State} (hs : SameButDeadEntries s s')
    (h : exec .ret s = .next t) : ∃ t', exec .ret s' = .next t' ∧ SameButDeadEntries t t' := by
  obtain ⟨stack, rfl, hlive⟩ := (sameButDeadEntries_iff _ _).mp hs
  rcases execRet_cases s with ⟨hsp, e⟩ | ⟨hsp, hpos, e, hnext⟩ | ⟨_, e⟩
  · cases e.symm.trans h
    exact ⟨_, exec_ret_of_sp_eq_zero (s := { s with stack := stack }) (s.sp_eq_zero_iff.mpr hsp), rfl, hlive⟩
  · cases e.symm.trans h
    have htop := hlive ⟨s.sp.toNat - 1, hsp⟩ (show s.sp.toNat - 1 < s.sp.toNat by omega)
    refine ⟨_, exec_ret_of_sp_pos (s := { s with stack := stack }) hpos (show s.sp.toNat ≤ 16 by omega), ?_,
      fun k hk => hlive k ?_⟩
    · dsimp only at htop ⊢
      rw [htop]
    · have hk' : k.val < (s.sp - 1).toNat := hk
      omega
  · cases e.symm.trans h

theorem exec_sameButDeadEntries {i : Instr} {s s' t : State} (hs : SameButDeadEntries s s')
    (h : exec i s = .next t) : ∃ t', exec i s' = .next t' ∧ SameButDeadEntries t t' := by
  rcases call_or_ret_or_neither i with ⟨nnn, rfl⟩ | rfl | ⟨hcall, hret⟩
  · exact exec_call_sameButDeadEntries hs h
  · exact exec_ret_sameButDeadEntries hs h
  · obtain ⟨stack, rfl, hlive⟩ := (sameButDeadEntries_iff _ _).mp hs
    rw [← graft_eq_of_exec hcall hret h]
    exact ⟨_, exec_graft (t := t) { s with stack := stack } hcall hret h, rfl, hlive⟩

/-- Settles O30: every way to end a step keeps the entries below `SP` equal, and `CALL` writes the same entry in both
states, which is then the one below the new `SP`. -/
theorem deadStackEntriesAreUnobservable : Obligations.DeadStackEntriesAreUnobservable := by
  intro s s' t hs h
  obtain ⟨stack, rfl, hlive⟩ := (sameButDeadEntries_iff _ _).mp hs
  have hfetched : SameButDeadEntries s.fetched { s with stack := stack }.fetched := ⟨rfl, hlive⟩
  exact step_related s _ rfl rfl (fun _ _ => rfl) ⟨rfl, hlive⟩ ⟨rfl, hlive⟩ (fun _ => ⟨rfl, hlive⟩)
    (fun _ _ he => exec_sameButDeadEntries hfetched he) h

end Sys2Proof.Machine
end

section
/-! PROOFS. The flag writers (45_alu.md R134; 46_alu_ext.md R140 to R144): all five are `writeFlagThenResult`, whose
effect is said once; each statement is then the arithmetic of its result and of its flag. -/

namespace Sys2Proof.Machine

theorem exec_addReg (x y : Reg) (s : State) : exec (.addReg x y) s =
    .next (s.writeFlagThenResult x (carryOut (s.reg x) (s.reg y)) (sumByte (s.reg x) (s.reg y))) := rfl

theorem exec_sub (x y : Reg) (s : State) : exec (.sub x y) s =
    .next (s.writeFlagThenResult x (noBorrow (s.reg x) (s.reg y)) (s.reg x - s.reg y)) := rfl

theorem exec_subn (x y : Reg) (s : State) : exec (.subn x y) s =
    .next (s.writeFlagThenResult x (noBorrow (s.reg y) (s.reg x)) (s.reg y - s.reg x)) := rfl

theorem exec_shr (x y : Reg) (s : State) : exec (.shr x y) s =
    .next (s.writeFlagThenResult x (lowBit (s.reg x)) (s.reg x >>> 1)) := rfl

theorem exec_shl (x y : Reg) (s : State) : exec (.shl x y) s =
    .next (s.writeFlagThenResult x (highBit (s.reg x)) (s.reg x <<< 1)) := rfl

/-! ## The effect of the two writes -/

theorem sameBesidesRegs_writeFlagThenResult (s : State) (x : Reg) (c : Bool) (b : Byte) :
    SameBesidesRegs s (s.writeFlagThenResult x c b) :=
  ⟨rfl, ⟨rfl, rfl⟩, ⟨rfl, rfl, rfl, fun _ => rfl, rfl, rfl⟩, rfl, rfl⟩

/-- An instruction that is `writeFlagThenResult` leaves the number `result` in `V[x]`, the number `flag` in `V[15]`
unless `x = 15`, and everything else as it was (R134, R144). -/
theorem writeFlag_effect {i : Instr} {s : State} {x : Reg} {c : Bool} {b : Byte} {result flag : Nat}
    (h : exec i s = .next (s.writeFlagThenResult x c b)) (hresult : b.toNat = result)
    (hflag : (if c then 1 else 0) = flag) :
    ∃ t, exec i s = .next t ∧ (t.reg x).toNat = result ∧ (x ≠ 15 → (t.reg 15).toNat = flag) ∧
      (∀ r, r ≠ x → r ≠ 15 → t.reg r = s.reg r) ∧ SameBesidesRegs s t := by
  refine ⟨_, h, ?_, fun hx => ?_, fun r hx h15 => s.writeFlagThenResult_reg_other c b hx h15,
    sameBesidesRegs_writeFlagThenResult s x c b⟩
  · rw [State.writeFlagThenResult_reg_self, hresult]
  · rw [State.writeFlagThenResult_reg_flag s c b hx, State.flagByte_toNat, hflag]

/-! ## The flags and results as numbers -/

theorem sub_byte_toNat (a b : Byte) : (a - b).toNat = (a.toNat + 256 - b.toNat) % 256 := by
  have := b.isLt
  rw [BitVec.toNat_sub]; omega

theorem noBorrow_flag (a b : Byte) : (if noBorrow a b then 1 else 0) = if a.toNat < b.toNat then 0 else 1 := by
  rw [State.noBorrow_eq]
  by_cases h : a.toNat < b.toNat
  · simp [h]
  · simp [h, Nat.not_lt.mp h]

theorem lowBit_flag (a : Byte) : (if lowBit a then 1 else 0) = a.toNat % 2 := by
  rw [lowBit, BitVec.getLsbD, Nat.testBit_zero]
  rcases Nat.mod_two_eq_zero_or_one a.toNat with h | h <;> simp [h]

theorem highBit_eq (a : Byte) : highBit a = decide (128 ≤ a.toNat) := by
  have := a.isLt
  rw [highBit, BitVec.getLsbD, Nat.testBit_eq_decide_div_mod_eq, decide_eq_decide]; omega

theorem highBit_flag (a : Byte) : (if highBit a then 1 else 0) = a.toNat / 128 := by
  have := a.isLt
  rw [highBit_eq]
  by_cases h : 128 ≤ a.toNat
  · simp [h]; omega
  · simp [h]; omega

theorem shiftRight_byte_toNat (a : Byte) : (a >>> 1).toNat = a.toNat / 2 := by
  rw [BitVec.toNat_ushiftRight, Nat.shiftRight_one]

theorem shiftLeft_byte_toNat (a : Byte) : (a <<< 1).toNat = 2 * a.toNat % 256 := by
  rw [BitVec.toNat_shiftLeft, Nat.shiftLeft_eq, Nat.mul_comm, Nat.pow_one]

/-! ## The obligations -/

/-- Settles O54: the 9-bit sum gives both the result and the carry. -/
theorem addRegWritesCarryThenSum : Obligations.AddRegWritesCarryThenSum := fun s x y =>
  writeFlag_effect (exec_addReg x y s) (State.sumByte_toNat _ _) (by rw [State.carryOut_eq]; simp)

/-- Settles O55. -/
theorem subWritesNoBorrowThenDifference : Obligations.SubWritesNoBorrowThenDifference := fun s x y _ =>
  writeFlag_effect (exec_sub x y s) (sub_byte_toNat _ _) (noBorrow_flag _ _)

/-- Settles O56: the operands of SUB exchanged. -/
theorem subnWritesNoBorrowThenReverseDifference : Obligations.SubnWritesNoBorrowThenReverseDifference :=
  fun s x y _ => writeFlag_effect (exec_subn x y s) (sub_byte_toNat _ _) (noBorrow_flag _ _)

/-- Settles O57: a right shift by one halves, and the bit it loses is the remainder. -/
theorem shrHalvesAndKeepsTheLostBit : Obligations.ShrHalvesAndKeepsTheLostBit := fun s x y _ =>
  writeFlag_effect (exec_shr x y s) (shiftRight_byte_toNat _) (lowBit_flag _)

/-- Settles O58: a left shift by one doubles modulo 256, and the bit it loses is bit 7. -/
theorem shlDoublesAndKeepsTheLostBit : Obligations.ShlDoublesAndKeepsTheLostBit := fun s x y _ =>
  writeFlag_effect (exec_shl x y s) (shiftLeft_byte_toNat _) (highBit_flag _)

theorem highBit_eq_carryOut (a : Byte) : highBit a = carryOut a a := by
  rw [highBit_eq, State.carryOut_eq, decide_eq_decide]; omega

theorem shiftLeft_eq_sumByte (a : Byte) : a <<< 1 = sumByte a a := by
  apply BitVec.eq_of_toNat_eq
  rw [shiftLeft_byte_toNat, State.sumByte_toNat, Nat.two_mul]

/-- Settles O59: the two instructions write the same flag and the same result. -/
theorem shlEqualsAddOfTheRegisterToItself : Obligations.ShlEqualsAddOfTheRegisterToItself := by
  intro s x y
  rw [exec_shl, exec_addReg, highBit_eq_carryOut, shiftLeft_eq_sumByte]

end Sys2Proof.Machine
end

section
/-! PROOFS. Memory (20_memory.md; log entry 18): the canonical form holds exactly the bytes that differ from the reset
contents, so it is determined by what is read; and the word stored for the next fetch. -/

namespace Sys2Proof.Machine

namespace Memory

theorem mem_iff_find {m : Memory} (hm : m.Pairwise (fun c d => c.1 < d.1)) (a : Nat) (b : Byte) :
    (a, b) ∈ m ↔ find m a = some b := by
  induction m with
  | nil => simp [find]
  | cons cell rest ih =>
    obtain ⟨k, c⟩ := cell
    obtain ⟨hlt, hrest⟩ := List.pairwise_cons.mp hm
    rw [find, List.mem_cons, Prod.mk.injEq]
    split_ifs with hk
    · subst hk
      have hnot : (k, b) ∉ rest := fun h => lt_irrefl k (hlt (k, b) h)
      simp [hnot, eq_comm]
    · simp [Ne.symm hk, ih hrest]

/-- A canonical memory lists exactly the bytes that read differently from the reset contents. -/
theorem mem_iff_read {g : GlyphTable} {m : Memory} (hm : wf g m) (a : Nat) (b : Byte) :
    (a, b) ∈ m ↔ a < memSize ∧ read g m a = b ∧ b ≠ resetByte g a := by
  obtain ⟨hrising, hcells⟩ := hm
  refine ⟨fun h => ⟨(hcells _ h).1, ?_, (hcells _ h).2⟩, fun ⟨_, hread, hne⟩ => ?_⟩
  · rw [read, (mem_iff_find hrising a b).mp h, Option.getD_some]
  · rw [mem_iff_find hrising]
    rw [read] at hread
    rcases hfind : find m a with _ | c
    · rw [hfind] at hread
      exact absurd hread.symm hne
    · rw [hfind] at hread
      exact congrArg some hread

end Memory

/-- Settles O60: both memories list the same cells, in rising order. -/
theorem canonicalMemoriesAreDeterminedByTheirBytes : Obligations.CanonicalMemoriesAreDeterminedByTheirBytes := by
  intro g m m' hm hm' hread
  have hsame : ∀ cell : Host.Cell, cell ∈ m ↔ cell ∈ m' := fun ⟨a, b⟩ => by
    rw [Memory.mem_iff_read hm, Memory.mem_iff_read hm']
    exact and_congr_right fun ha => by rw [hread a ha]
  have : Std.Antisymm (fun c d : Host.Cell => c.1 < d.1) := ⟨fun _ _ h h' => absurd h h'.not_gt⟩
  have : Std.Irrefl (fun c d : Host.Cell => c.1 < d.1) := ⟨fun c => lt_irrefl c.1⟩
  exact hm.1.eq_of_mem_iff hm'.1 hsame

/-! ## A word stored for the fetch -/

theorem State.storeWord_fetch {s : State} (hpc : s.pc.toNat ≤ 0x0FFE) (w : Word) :
    (s.storeWord s.pc.toNat w).fetch = some w := by
  rcases (s.storeWord s.pc.toNat w).fetch_cases with ⟨_, hfetch⟩ | ⟨hgt, _⟩
  · rw [hfetch]
    simp only [State.storeWord, Memory.read_writeBytes, List.length_cons, List.length_nil, memSize]
    rw [dif_pos ⟨le_rfl, by omega, by omega⟩, dif_pos ⟨by omega, by omega, by omega⟩]
    simp [wordOfBytes_bytes]
  · exact absurd hpc (Nat.not_le.mpr hgt)

theorem State.storeWord_memRead_of_ne {s : State} {a a' : Nat} (h : a' ≠ a) (h1 : a' ≠ a + 1) (w : Word) :
    (s.storeWord a w).memRead a' = s.memRead a' := by
  simp only [Memory.memRead_eq, State.storeWord, Memory.read_writeBytes, List.length_cons, List.length_nil]
  rw [dif_neg (by omega)]

/-- Settles O31: `withFetchWord` stores the word at `PC`, and a stored word is the one fetched from there. -/
theorem placedWordIsFetchedNext : Obligations.PlacedWordIsFetchedNext := fun _ _ _ hpc =>
  ⟨State.storeWord_fetch hpc _, rfl, fun _ h h1 => State.storeWord_memRead_of_ne h h1 _⟩

end Sys2Proof.Machine
end

section
/-! PROOFS. The requests of the host (70_reset_and_hazards.md R178 to R180, R185; 10_state.md R31 to R33): what the reset
state holds, what `load` writes, what a timer write leaves, and what only `init` can undo. -/

namespace Sys2Proof.Machine

/-! ## The reset state -/

/-- Settles O2: the reset state is what `init` leaves on the standard configuration, whose 80 glyph bytes are read
one by one. -/
theorem resetHoldsTheDefaultGlyphs : Obligations.ResetHoldsTheDefaultGlyphs := by
  refine ⟨by decide, fun _ => State.init_memRead_zero _, fun a ha => if_neg ?_, State.init_reg _, rfl, rfl, rfl,
    State.init_stack _, rfl, rfl, rfl, rfl, rfl⟩
  simp only [memSize]; omega

/-! ## `load` -/

/-- Settles O3: the bound of `load` is its only condition. -/
theorem loadAcceptedExactlyWhenImageFits : Obligations.LoadAcceptedExactlyWhenImageFits := by
  refine ⟨rfl, fun s image => ?_⟩
  have hbound : image.length + 512 < 4096 ↔ image.length ≤ maxProgramSize := by
    simp only [maxProgramSize]; omega
  rw [← hbound, and_self_left]
  rcases s.load_cases image with ⟨hfits, e⟩ | ⟨hlong, e⟩
  · simp [e, hfits]
  · simp [e, hlong, serve_load_refused e]

/-- What `load` puts into memory, byte by byte (R178). -/
theorem memRead_writeBytes (s : State) (a : Nat) (image : List Byte) (pc : Word) (a' : Nat) :
    ({ s with mem := Memory.writeBytes s.cfg.glyphTable s.mem a image, pc := pc } : State).memRead a' =
      if h : a ≤ a' ∧ a' < a + image.length ∧ a' < memSize then some image[a' - a] else s.memRead a' := by
  simp only [Memory.memRead_eq, Memory.read_writeBytes]
  by_cases hmem : a' < memSize
  · rw [if_pos hmem, if_pos hmem]
    split_ifs <;> rfl
  · rw [if_neg hmem, if_neg hmem, dif_neg (fun h => hmem h.2.2)]

/-- Settles O4: the image stands at 512 and up, and no other byte and no other field is written. -/
theorem loadCopiesImageAndSetsPc : Obligations.LoadCopiesImageAndSetsPc := by
  intro s image hfits
  rcases s.load_cases image with ⟨_, e⟩ | ⟨hlong, _⟩
  · refine ⟨_, serve_load_ok e, rfl, fun k hk => ?_, fun a ha => ?_, fun _ => rfl, ⟨rfl, rfl⟩, ⟨rfl, rfl⟩,
      rfl, rfl, rfl, rfl, rfl⟩
    · rw [memRead_writeBytes, dif_pos ⟨by omega, by omega, by simp only [memSize]; omega⟩]
      simp only [Nat.add_sub_cancel_left]
    · rw [memRead_writeBytes, dif_neg (by omega)]
  · exact absurd hfits hlong

/-- Whatever the image, `load` writes at most memory and `PC` (R178, R179). -/
theorem serve_load_writes {s t : State} {image : List Byte} (h : serve (.load image) s = .next t) :
    ∃ mem pc, t = { s with mem := mem, pc := pc } := by
  rcases s.load_cases image with ⟨_, e⟩ | ⟨_, e⟩
  · cases (serve_load_ok e).symm.trans h; exact ⟨_, _, rfl⟩
  · cases (serve_load_refused e).symm.trans h; exact ⟨s.mem, s.pc, rfl⟩

/-! ## The timers -/

/-- Settles O5: a timer write is an update of the one field. -/
theorem hostTimerWriteStoresTheByteOnly : Obligations.HostTimerWriteStoresTheByteOnly := fun s b =>
  ⟨⟨_, serve_writeDT s b, rfl, rfl, rfl, fun _ => rfl, rfl, rfl, rfl, fun _ => rfl, ⟨rfl, rfl⟩, rfl, rfl⟩,
    ⟨_, serve_writeST s b, rfl, rfl, rfl, fun _ => rfl, rfl, rfl, rfl, fun _ => rfl, ⟨rfl, rfl⟩, rfl, rfl⟩⟩

/-! ## What only `init` undoes -/

/-- The next state of a halted core is the core itself, its outcome apart (40_cycle.md R90). -/
theorem eq_halt_of_step {s t : State} (hf : s.fault ≠ 0) (h : step s = .next t) : t = s.halt :=
  (Host.Outcome.next.inj ((step_of_halted hf).symm.trans h)).symm

/-- Settles O6, request by request: a step of a halted core changes nothing, and the counter never goes down. -/
theorem onlyInitClearsFaultAndCounter : Obligations.OnlyInitClearsFaultAndCounter := by
  intro r s t h
  cases r with
  | init => cases h; exact ⟨rfl, fun _ _ => rfl, fun _ => rfl⟩
  | load image =>
    obtain ⟨mem, pc, rfl⟩ := serve_load_writes h
    exact ⟨rfl, fun _ hne => absurd rfl hne, fun hlt => absurd hlt (lt_irrefl _)⟩
  | step =>
    have hleaves := stepLeaves_of_step h
    obtain ⟨_, _, _, _, hcfg⟩ := hleaves.sameStoreButCounter
    refine ⟨hcfg, fun hf hne => ?_, fun hlt => absurd hlt (Nat.not_lt.mpr hleaves.unrecCnt_le)⟩
    exact absurd (congrArg State.fault (eq_halt_of_step hf h)) hne
  | writeDT | writeST | readState =>
    cases h
    exact ⟨rfl, fun _ hne => absurd rfl hne, fun hlt => absurd hlt (lt_irrefl _)⟩

/-- What a halted core keeps under every request but `init`: `FAULT`, the `V` registers, the stack, `I`, the counter
and the parameters. -/
def KeptWhileHalted (s t : State) : Prop :=
  t.fault = s.fault ∧ SameRegs s t ∧ SameStack s t ∧ t.i = s.i ∧ t.unrecCnt = s.unrecCnt ∧ t.cfg = s.cfg

theorem KeptWhileHalted.trans {s t u : State} (hst : KeptWhileHalted s t) (htu : KeptWhileHalted t u) :
    KeptWhileHalted s u := by
  obtain ⟨hf, hregs, ⟨hsp, hstack⟩, hi, hcnt, hcfg⟩ := hst
  obtain ⟨hf', hregs', ⟨hsp', hstack'⟩, hi', hcnt', hcfg'⟩ := htu
  exact ⟨hf'.trans hf, fun r => (hregs' r).trans (hregs r), ⟨hsp'.trans hsp, hstack'.trans hstack⟩, hi'.trans hi,
    hcnt'.trans hcnt, hcfg'.trans hcfg⟩

theorem keptWhileHalted_of_serve {r : Request} {s t : State} (hf : s.fault ≠ 0) (hr : r ≠ .init)
    (h : serve r s = .next t) : KeptWhileHalted s t := by
  cases r with
  | init => exact absurd rfl hr
  | load image =>
    obtain ⟨mem, pc, rfl⟩ := serve_load_writes h
    exact ⟨rfl, fun _ => rfl, ⟨rfl, rfl⟩, rfl, rfl, rfl⟩
  | step =>
    obtain rfl := eq_halt_of_step hf h
    exact ⟨rfl, fun _ => rfl, ⟨rfl, rfl⟩, rfl, rfl, rfl⟩
  | writeDT | writeST | readState =>
    cases h
    exact ⟨rfl, fun _ => rfl, ⟨rfl, rfl⟩, rfl, rfl, rfl⟩

/-- A list of requests that is served to its end is its first request served, then the rest. -/
theorem serveAll_cons_eq_next {r : Request} {rs : List Request} {s u : State} (h : serveAll (r :: rs) s = .next u) :
    ∃ t, serve r s = .next t ∧ serveAll rs t = .next u := by
  rw [serveAll] at h
  rcases e : serve r s with t | _ | _
  · exact ⟨t, rfl, by simpa [e] using h⟩
  · simp [e] at h
  · simp [e] at h

/-- Settles O7, by induction on the list of requests. -/
theorem haltedCoreStaysHaltedUntilInit : Obligations.HaltedCoreStaysHaltedUntilInit := by
  intro requests s u hf hinit h
  change KeptWhileHalted s u
  induction requests generalizing s with
  | nil => cases h; exact ⟨rfl, fun _ => rfl, ⟨rfl, rfl⟩, rfl, rfl, rfl⟩
  | cons r rs ih =>
    obtain ⟨hr, hrs⟩ := List.ne_and_not_mem_of_not_mem_cons hinit
    obtain ⟨t, hserve, hrest⟩ := serveAll_cons_eq_next h
    have hkept := keptWhileHalted_of_serve hf hr.symm hserve
    have hft : t.fault ≠ 0 := by
      rw [hkept.1]; exact hf
    exact hkept.trans (ih t hft hrs hrest)

end Sys2Proof.Machine
end

section
/-! PROOFS. The fetch and the step in each situation (40_cycle.md R90 to R96): the word read at `PC`, the instruction it
decodes to, and the frames of an unrecognised word, of a fetch beyond memory and of a halted core. -/

namespace Sys2Proof.Machine

/-! ## The fetch -/

/-- Two bytes that exist at `PC` are the fetched word, most significant byte first (20_memory.md R54). -/
theorem State.fetch_of_memRead {s : State} {a b : Byte} (ha : s.memRead s.pc.toNat = some a)
    (hb : s.memRead (s.pc.toNat + 1) = some b) : s.fetch = some (wordOfBytes a b) := by
  rw [fetch, ha, hb]

theorem State.memRead_of_lt {s : State} {a : Nat} (h : a < memSize) :
    s.memRead a = some (Memory.read s.cfg.glyphTable s.mem a) := if_pos h

/-- Settles O12: both addresses exist, and the word is their two bytes. -/
theorem fetchReadsMostSignificantByteFirst : Obligations.FetchReadsMostSignificantByteFirst := by
  intro s hpc
  have hfirst := s.memRead_of_lt (a := s.pc.toNat) (by simp only [memSize]; omega)
  have hsecond := s.memRead_of_lt (a := s.pc.toNat + 1) (by simp only [memSize]; omega)
  exact ⟨_, _, _, hfirst, hsecond, State.fetch_of_memRead hfirst hsecond, wordOfBytes_toNat _ _⟩

/-- Settles O13. -/
theorem fetchFailsExactlyBeyondMemory : Obligations.FetchFailsExactlyBeyondMemory := State.fetch_eq_none_iff

/-! ## The step -/

/-- Settles O14: the two bytes are the fetched word, and the decoder gives only instructions the core has. -/
theorem stepRunsTheDecodedInstruction : Obligations.StepRunsTheDecodedInstruction := by
  intro s a b i hrun ha hb hdecode
  have hexec : s.Executes i := ⟨hrun, _, State.fetch_of_memRead ha hb, hdecode⟩
  exact ⟨hexec.step_eq, (encode_of_decode hdecode).2⟩

/-- Settles O15: the step counts and emits on the fetched state, and neither touches another field. -/
theorem unrecognisedWordIsCountedAndReported : Obligations.UnrecognisedWordIsCountedAndReported := fun s _ h =>
  ⟨_, h.step_eq, State.countUp_toNat s.unrecCnt, rfl, rfl, h.fault_eq_zero, fun _ => rfl, ⟨rfl, rfl⟩, fun _ => rfl,
    rfl, rfl, rfl, rfl⟩

/-- Settles O16: the step is `raise` on the state as it was. -/
theorem fetchBeyondMemoryFaults : Obligations.FetchBeyondMemoryFaults := fun s hrun hpc =>
  ⟨_, step_of_fetch_none hrun (s.fetch_eq_none_iff.mpr hpc), rfl, rfl, rfl, sameRegs_raise s _, sameStack_raise s _,
    sameStore_raise s _⟩

/-- Settles O17: the step is `halt`, which writes the outcome alone. -/
theorem haltedCoreChangesNothing : Obligations.HaltedCoreChangesNothing := fun _ hf =>
  ⟨_, step_of_halted hf, rfl, rfl, rfl, fun _ => rfl, ⟨rfl, rfl⟩, rfl, rfl, rfl, fun _ => rfl, rfl, rfl⟩

end Sys2Proof.Machine
end

section
/-! PROOFS. Control transfer and skips, instruction by instruction (42_control_flow.md R105 to R107; 43_skip.md R115 to
R117): the answer of `exec` at each depth and on each condition, with its frame. -/

namespace Sys2Proof.Machine

/-! ## `CALL` and `RET` -/

/-- Settles O41: the other cases of the two instructions have a depth of 16 at most. -/
theorem invalidDepthStopsCallAndRet : Obligations.InvalidDepthStopsCallAndRet := by
  intro s nnn hsp
  constructor
  · rcases execCall_cases nnn s with ⟨heq, _⟩ | ⟨hlt, _⟩ | ⟨_, e⟩
    · omega
    · omega
    · exact e
  · rcases execRet_cases s with ⟨hzero, _⟩ | ⟨htop, _⟩ | ⟨_, e⟩
    · omega
    · omega
    · exact e

/-- Settles O42. -/
theorem retPopsTheTopIntoPc : Obligations.RetPopsTheTopIntoPc := fun _ hpos hle =>
  ⟨_, exec_ret_of_sp_pos hpos hle, Vector.getElem?_eq_getElem (by omega), (State.pop_of_sp_pos hpos hle).2, rfl,
    sameRegs_withStackPc _ _ _ _, sameStore_withStackPc _ _ _ _, sameStatus_withStackPc _ _ _ _⟩

/-- Settles O43: `RET` on an empty stack is `raise`. -/
theorem retAtDepthZeroFaults : Obligations.RetAtDepthZeroFaults := fun s h =>
  ⟨_, exec_ret_of_sp_eq_zero h, rfl, rfl, rfl, sameRegs_raise s _, sameStack_raise s _, sameStore_raise s _⟩

/-- Settles O45: the entry written is the one at the old `SP`. -/
theorem callPushesPcAndJumps : Obligations.CallPushesPcAndJumps := fun s nnn h =>
  ⟨_, exec_call_of_sp_lt_sixteen h nnn, Vector.getElem?_set_self h, fun _ hk => Vector.getElem?_set_ne h hk.symm,
    (State.push_of_sp_lt_sixteen h s.pc).2, State.target_toNat nnn, sameRegs_withStackPc _ _ _ _,
    sameStore_withStackPc _ _ _ _, sameStatus_withStackPc _ _ _ _⟩

/-- Settles O46: `CALL` on a full stack is `raise`. -/
theorem callAtDepthSixteenFaults : Obligations.CallAtDepthSixteenFaults := fun s nnn h =>
  ⟨_, exec_call_of_sp_eq_sixteen h nnn, rfl, rfl, rfl, sameRegs_raise s _, sameStack_raise s _, sameStore_raise s _⟩

/-! ## `JP` and the skips: writes of `PC` alone -/

theorem sameBesidesPc_setPc (s : State) (t : Word) : SameBesidesPc s (s.setPc t) :=
  ⟨s.setPc_reg t, ⟨rfl, rfl⟩, ⟨rfl, rfl, rfl, s.setPc_memRead t, rfl, rfl⟩, rfl, rfl⟩

theorem sameBesidesPc_skipIf (s : State) (c : Bool) : SameBesidesPc s (s.skipIf c) := by
  rw [State.skipIf_eq]; exact sameBesidesPc_setPc s _

theorem exec_jp (nnn : Addr12) (s : State) : exec (.jp nnn) s = .next (s.setPc (target nnn)) := rfl

theorem exec_seImm (x : Reg) (kk : Byte) (s : State) : exec (.seImm x kk) s = .next (s.skipIf (s.reg x == kk)) := rfl

theorem exec_sneImm (x : Reg) (kk : Byte) (s : State) : exec (.sneImm x kk) s = .next (s.skipIf (s.reg x != kk)) := rfl

theorem exec_seReg (x y : Reg) (s : State) : exec (.seReg x y) s = .next (s.skipIf (s.reg x == s.reg y)) := rfl

/-- Settles O44. -/
theorem jpSetsPcOnly : Obligations.JpSetsPcOnly := fun s nnn =>
  ⟨_, exec_jp nnn s, State.target_toNat nnn, sameBesidesPc_setPc s _⟩

/-- A skip on equality, and one on difference, as `PC` shows them. -/
theorem skipIf_beq_pc (s : State) (a b : Byte) : (s.skipIf (a == b)).pc = if a = b then s.pc + 2 else s.pc := by
  by_cases h : a = b <;> simp [h]

theorem skipIf_bne_pc (s : State) (a b : Byte) : (s.skipIf (a != b)).pc = if a = b then s.pc else s.pc + 2 := by
  by_cases h : a = b <;> simp [h]

/-- Settles O48: each of the three is a skip on its own condition. -/
theorem skipsMovePcExactlyOnTheirCondition : Obligations.SkipsMovePcExactlyOnTheirCondition := fun s x y kk =>
  ⟨⟨_, exec_seImm x kk s, sameBesidesPc_skipIf s _, skipIf_beq_pc s _ _⟩,
    ⟨_, exec_sneImm x kk s, sameBesidesPc_skipIf s _, skipIf_bne_pc s _ _⟩,
    ⟨_, exec_seReg x y s, sameBesidesPc_skipIf s _, skipIf_beq_pc s _ _⟩⟩

/-- Settles O49: `V[x] = kk` or not, and `V[x] = V[x]`. -/
theorem exactlyOneOfSeAndSneSkips : Obligations.ExactlyOneOfSeAndSneSkips := by
  refine fun s x kk => ⟨_, _, _, exec_seImm x kk s, exec_sneImm x kk s, exec_seReg x x s, ?_, ?_⟩
  · rw [skipIf_beq_pc, skipIf_bne_pc]
    by_cases h : s.reg x = kk
    · exact .inl ⟨if_pos h, if_pos h⟩
    · exact .inr ⟨if_neg h, if_neg h⟩
  · rw [skipIf_beq_pc, if_pos rfl]

end Sys2Proof.Machine
end
